-- ==== Sys2Proof/Word.lean ====
section
/-! DEFINITION. The word of the machine (00_scope.md R6, R10; 10_state.md R20). -/

namespace Sys2Proof

/-- A word: "16-bit unsigned value, arithmetic wraps modulo 65536" (R20). -/
abbrev Word := BitVec 16

/-- The 17-bit address of `MemRead` and of `fault_info` (20_memory.md R52, 60_exceptions.md R196). -/
abbrev Addr17 := BitVec 17

end Sys2Proof
end

