-- ==== Sys2Proof/Config.lean ====
section
/-! DEFINITION. The parameters of 00_scope.md R6. The fixed widths (WORD_BITS 16, ADDR_BITS 16, OPC_BITS 5,
IMM_SHORT_BITS 9, CYCLE_BITS 32) stand in the types of the model; the load base and the two OPEN parameters stand here. -/

namespace Sys2Proof.Config

/-- `LOAD_BASE` = 0x0000: the address of the first word of a loaded program (R6, R58, D15). -/
def loadBase : Nat := 0x0000

/-- The two OPEN parameters of R6, arguments of `State.create`. -/
structure Params where
  /-- `MEM_WORDS`, the number of memory cells at creation, 1 to 65536 (D16). -/
  memWords : Nat
  /-- `NGPR`, the number of general registers, 0 to 16 (D17). -/
  ngpr : Nat
deriving DecidableEq, Repr

/-- The ranges R6 gives the two parameters. -/
abbrev Params.valid (p : Params) : Prop := 1 ≤ p.memWords ∧ p.memWords ≤ 65536 ∧ p.ngpr ≤ 16

/-- DESIGN CHOICE (logs 2 and 3), unsafe: the values R6 suggests, 4096 cells and 8 registers. Only `State.reset` uses
them; every other definition takes the two parameters from the state it is given. -/
def suggested : Params := { memWords := 4096, ngpr := 8 }

end Sys2Proof.Config
end

