-- ==== Sys2Proof/Syntax.lean ====
section
/-! DEFINITION. The syntax: addressing modes, opcodes, and one constructor of `Instr` for each of the 43 rows of
spec/opcode_table.json (30_encoding.md R70 to R73). -/

namespace Sys2Proof

/-- The two addressing modes of R70: "IMMEDIATE, operand is a literal value; DIRECT, operand is an address". -/
inductive Mode where
  | immediate
  | direct
deriving DecidableEq, Repr

/-- The 23 assigned opcodes of R71. -/
inductive Opcode where
  | nop
  | halt
  | ldi
  | lda
  | sta
  | add
  | sub
  | mul
  | div
  | cmp
  | and
  | or
  | xor
  | not
  | jmp
  | jz
  | jnz
  | jc
  | jnc
  | jv
  | jnv
  | jn
  | jnn
deriving DecidableEq, Repr

/-- Operand arity, 0 or 1 (R70, R71). -/
def Opcode.arity : Opcode → Nat
  | .nop => 0
  | .halt => 0
  | .ldi => 1
  | .lda => 1
  | .sta => 1
  | .add => 1
  | .sub => 1
  | .mul => 1
  | .div => 1
  | .cmp => 1
  | .and => 1
  | .or => 1
  | .xor => 1
  | .not => 0
  | .jmp => 1
  | .jz => 1
  | .jnz => 1
  | .jc => 1
  | .jnc => 1
  | .jv => 1
  | .jnv => 1
  | .jn => 1
  | .jnn => 1

/-- The canonical mode, the only allowed one (R71, by the four normalisation rules of R78). -/
def Opcode.canonicalMode : Opcode → Mode
  | .nop => .immediate
  | .halt => .immediate
  | .ldi => .immediate
  | .lda => .direct
  | .sta => .direct
  | .add => .direct
  | .sub => .direct
  | .mul => .direct
  | .div => .direct
  | .cmp => .direct
  | .and => .direct
  | .or => .direct
  | .xor => .direct
  | .not => .immediate
  | .jmp => .immediate
  | .jz => .immediate
  | .jnz => .immediate
  | .jc => .immediate
  | .jnc => .immediate
  | .jv => .immediate
  | .jnv => .immediate
  | .jn => .immediate
  | .jnn => .immediate

/-- One constructor per row of spec/opcode_table.json. The name's last letter is the row's format: `S` short (one word,
9-bit operand, R72), `W` wide (two words, 16-bit operand, R73); the three rows of arity 0 have one format only.
The mode is a component of the instruction as R70 gives it; `Instr.wellFormed` asks that it is the canonical one. -/
inductive Instr where
  | nop
  | halt
  | ldiS (mode : Mode) (imm9 : BitVec 9)
  | ldiW (mode : Mode) (imm16 : Word)
  | ldaS (mode : Mode) (imm9 : BitVec 9)
  | ldaW (mode : Mode) (imm16 : Word)
  | staS (mode : Mode) (imm9 : BitVec 9)
  | staW (mode : Mode) (imm16 : Word)
  | addS (mode : Mode) (imm9 : BitVec 9)
  | addW (mode : Mode) (imm16 : Word)
  | subS (mode : Mode) (imm9 : BitVec 9)
  | subW (mode : Mode) (imm16 : Word)
  | mulS (mode : Mode) (imm9 : BitVec 9)
  | mulW (mode : Mode) (imm16 : Word)
  | divS (mode : Mode) (imm9 : BitVec 9)
  | divW (mode : Mode) (imm16 : Word)
  | cmpS (mode : Mode) (imm9 : BitVec 9)
  | cmpW (mode : Mode) (imm16 : Word)
  | andS (mode : Mode) (imm9 : BitVec 9)
  | andW (mode : Mode) (imm16 : Word)
  | orS (mode : Mode) (imm9 : BitVec 9)
  | orW (mode : Mode) (imm16 : Word)
  | xorS (mode : Mode) (imm9 : BitVec 9)
  | xorW (mode : Mode) (imm16 : Word)
  | not
  | jmpS (mode : Mode) (imm9 : BitVec 9)
  | jmpW (mode : Mode) (imm16 : Word)
  | jzS (mode : Mode) (imm9 : BitVec 9)
  | jzW (mode : Mode) (imm16 : Word)
  | jnzS (mode : Mode) (imm9 : BitVec 9)
  | jnzW (mode : Mode) (imm16 : Word)
  | jcS (mode : Mode) (imm9 : BitVec 9)
  | jcW (mode : Mode) (imm16 : Word)
  | jncS (mode : Mode) (imm9 : BitVec 9)
  | jncW (mode : Mode) (imm16 : Word)
  | jvS (mode : Mode) (imm9 : BitVec 9)
  | jvW (mode : Mode) (imm16 : Word)
  | jnvS (mode : Mode) (imm9 : BitVec 9)
  | jnvW (mode : Mode) (imm16 : Word)
  | jnS (mode : Mode) (imm9 : BitVec 9)
  | jnW (mode : Mode) (imm16 : Word)
  | jnnS (mode : Mode) (imm9 : BitVec 9)
  | jnnW (mode : Mode) (imm16 : Word)
deriving DecidableEq, Repr

/-- The opcode of an instruction. -/
def Instr.op : Instr → Opcode
  | .nop => .nop
  | .halt => .halt
  | .ldiS _ _ => .ldi
  | .ldiW _ _ => .ldi
  | .ldaS _ _ => .lda
  | .ldaW _ _ => .lda
  | .staS _ _ => .sta
  | .staW _ _ => .sta
  | .addS _ _ => .add
  | .addW _ _ => .add
  | .subS _ _ => .sub
  | .subW _ _ => .sub
  | .mulS _ _ => .mul
  | .mulW _ _ => .mul
  | .divS _ _ => .div
  | .divW _ _ => .div
  | .cmpS _ _ => .cmp
  | .cmpW _ _ => .cmp
  | .andS _ _ => .and
  | .andW _ _ => .and
  | .orS _ _ => .or
  | .orW _ _ => .or
  | .xorS _ _ => .xor
  | .xorW _ _ => .xor
  | .not => .not
  | .jmpS _ _ => .jmp
  | .jmpW _ _ => .jmp
  | .jzS _ _ => .jz
  | .jzW _ _ => .jz
  | .jnzS _ _ => .jnz
  | .jnzW _ _ => .jnz
  | .jcS _ _ => .jc
  | .jcW _ _ => .jc
  | .jncS _ _ => .jnc
  | .jncW _ _ => .jnc
  | .jvS _ _ => .jv
  | .jvW _ _ => .jv
  | .jnvS _ _ => .jnv
  | .jnvW _ _ => .jnv
  | .jnS _ _ => .jn
  | .jnW _ _ => .jn
  | .jnnS _ _ => .jnn
  | .jnnW _ _ => .jnn

/-- The mode of an instruction; IMMEDIATE for arity 0 (R78 (a)). -/
def Instr.mode : Instr → Mode
  | .nop => .immediate
  | .halt => .immediate
  | .ldiS m _ => m
  | .ldiW m _ => m
  | .ldaS m _ => m
  | .ldaW m _ => m
  | .staS m _ => m
  | .staW m _ => m
  | .addS m _ => m
  | .addW m _ => m
  | .subS m _ => m
  | .subW m _ => m
  | .mulS m _ => m
  | .mulW m _ => m
  | .divS m _ => m
  | .divW m _ => m
  | .cmpS m _ => m
  | .cmpW m _ => m
  | .andS m _ => m
  | .andW m _ => m
  | .orS m _ => m
  | .orW m _ => m
  | .xorS m _ => m
  | .xorW m _ => m
  | .not => .immediate
  | .jmpS m _ => m
  | .jmpW m _ => m
  | .jzS m _ => m
  | .jzW m _ => m
  | .jnzS m _ => m
  | .jnzW m _ => m
  | .jcS m _ => m
  | .jcW m _ => m
  | .jncS m _ => m
  | .jncW m _ => m
  | .jvS m _ => m
  | .jvW m _ => m
  | .jnvS m _ => m
  | .jnvW m _ => m
  | .jnS m _ => m
  | .jnW m _ => m
  | .jnnS m _ => m
  | .jnnW m _ => m

/-- Whether the row is a wide one (two words, R73). -/
def Instr.isWide : Instr → Bool
  | .nop => false
  | .halt => false
  | .ldiS _ _ => false
  | .ldiW _ _ => true
  | .ldaS _ _ => false
  | .ldaW _ _ => true
  | .staS _ _ => false
  | .staW _ _ => true
  | .addS _ _ => false
  | .addW _ _ => true
  | .subS _ _ => false
  | .subW _ _ => true
  | .mulS _ _ => false
  | .mulW _ _ => true
  | .divS _ _ => false
  | .divW _ _ => true
  | .cmpS _ _ => false
  | .cmpW _ _ => true
  | .andS _ _ => false
  | .andW _ _ => true
  | .orS _ _ => false
  | .orW _ _ => true
  | .xorS _ _ => false
  | .xorW _ _ => true
  | .not => false
  | .jmpS _ _ => false
  | .jmpW _ _ => true
  | .jzS _ _ => false
  | .jzW _ _ => true
  | .jnzS _ _ => false
  | .jnzW _ _ => true
  | .jcS _ _ => false
  | .jcW _ _ => true
  | .jncS _ _ => false
  | .jncW _ _ => true
  | .jvS _ _ => false
  | .jvW _ _ => true
  | .jnvS _ _ => false
  | .jnvW _ _ => true
  | .jnS _ _ => false
  | .jnW _ _ => true
  | .jnnS _ _ => false
  | .jnnW _ _ => true

end Sys2Proof
end

