-- ==== Sys2Proof/Decode.lean ====
section
/-! DEFINITION. The encoding: fields, opcode numbers, decoder, and after it the encoders (30_encoding.md R70 to R83, R88). -/

namespace Sys2Proof

/-! ### The opcode table (R71) -/

/-- The opcode number (R71, D2). -/
def Opcode.number : Opcode → BitVec 5
  | .nop => 0x01#5
  | .halt => 0x02#5
  | .ldi => 0x03#5
  | .lda => 0x04#5
  | .sta => 0x05#5
  | .add => 0x06#5
  | .sub => 0x07#5
  | .mul => 0x08#5
  | .div => 0x09#5
  | .cmp => 0x0A#5
  | .and => 0x0B#5
  | .or => 0x0C#5
  | .xor => 0x0D#5
  | .not => 0x0E#5
  | .jmp => 0x10#5
  | .jz => 0x12#5
  | .jnz => 0x13#5
  | .jc => 0x14#5
  | .jnc => 0x15#5
  | .jv => 0x16#5
  | .jnv => 0x17#5
  | .jn => 0x18#5
  | .jnn => 0x19#5

/-- The opcode of a number; `none` for the unassigned numbers (R71). -/
def Opcode.ofNumber : BitVec 5 → Option Opcode
  | 0x01#5 => some .nop
  | 0x02#5 => some .halt
  | 0x03#5 => some .ldi
  | 0x04#5 => some .lda
  | 0x05#5 => some .sta
  | 0x06#5 => some .add
  | 0x07#5 => some .sub
  | 0x08#5 => some .mul
  | 0x09#5 => some .div
  | 0x0A#5 => some .cmp
  | 0x0B#5 => some .and
  | 0x0C#5 => some .or
  | 0x0D#5 => some .xor
  | 0x0E#5 => some .not
  | 0x10#5 => some .jmp
  | 0x12#5 => some .jz
  | 0x13#5 => some .jnz
  | 0x14#5 => some .jc
  | 0x15#5 => some .jnc
  | 0x16#5 => some .jv
  | 0x17#5 => some .jnv
  | 0x18#5 => some .jn
  | 0x19#5 => some .jnn
  | _ => none

/-- The mnemonic (R71). -/
def Opcode.mnemonic : Opcode → String
  | .nop => "NOP"
  | .halt => "HALT"
  | .ldi => "LDI"
  | .lda => "LDA"
  | .sta => "STA"
  | .add => "ADD"
  | .sub => "SUB"
  | .mul => "MUL"
  | .div => "DIV"
  | .cmp => "CMP"
  | .and => "AND"
  | .or => "OR"
  | .xor => "XOR"
  | .not => "NOT"
  | .jmp => "JMP"
  | .jz => "JZ"
  | .jnz => "JNZ"
  | .jc => "JC"
  | .jnc => "JNC"
  | .jv => "JV"
  | .jnv => "JNV"
  | .jn => "JN"
  | .jnn => "JNN"

/-- The opcode table in the order of R71. -/
def Opcode.all : List Opcode :=
  [.nop, .halt, .ldi, .lda, .sta, .add, .sub, .mul, .div, .cmp, .and, .or, .xor, .not, .jmp, .jz, .jnz, .jc, .jnc, .jv, .jnv, .jn, .jnn]

/-- The opcode of a mnemonic; `none` for a name that is not in the table. DESIGN CHOICE (log 20): the name is compared letter
for letter with the upper-case spelling of R71, so `ldi` is not in the table; R85 and N9 leave open whether mnemonics are
case-sensitive. -/
def Opcode.ofMnemonic (name : String) : Option Opcode := Opcode.all.find? (fun o => o.mnemonic == name)

/-- A row of the static lookup `getInstructionInfo` (R88): opcode number, arity, allowed modes. -/
structure InstructionInfo where
  opcode : BitVec 5
  arity : Nat
  allowedModes : List Mode
deriving DecidableEq, Repr

/-- `getInstructionInfo(mnemonic)` (R88): the row of R71, whose one allowed mode is the canonical mode. The name is read as
`Opcode.ofMnemonic` reads it (log 20). -/
def instructionInfo (name : String) : Option InstructionInfo :=
  (Opcode.ofMnemonic name).map fun o => { opcode := o.number, arity := o.arity, allowedModes := [o.canonicalMode] }

/-! ### Fields of the first word (R72, R73) -/

/-- `opc` = `w0[15:11]`. -/
def opcField (w0 : Word) : BitVec 5 := w0.extractLsb' 11 5

/-- `W` = `w0[10]`: the instruction is two words long exactly when it is set, whatever the other bits (R74). -/
def wideBit (w0 : Word) : Bool := w0.getLsbD 10

/-- `M` = `w0[9]`. -/
def modeBit (w0 : Word) : Bool := w0.getLsbD 9

/-- `imm9` = `w0[8:0]`. -/
def imm9Field (w0 : Word) : BitVec 9 := w0.extractLsb' 0 9

/-- The coding of the mode: 0 IMMEDIATE, 1 DIRECT (R72, D4). -/
def modeOfBit : Bool → Mode
  | false => .immediate
  | true => .direct

/-- The mode bit the encoder writes (R72, D4). -/
def bitOfMode : Mode → Bool
  | .immediate => false
  | .direct => true

/-- Length in words of the instruction whose first word is `w0` (R74). -/
def wordLength (w0 : Word) : Nat := if wideBit w0 then 2 else 1

/-! ### Instructions and triples (R70, R75) -/

/-- The assembled operand (R75): `zext_16(imm9)` in the short format, the second word in the wide one, 0 for arity 0. -/
def Instr.operand : Instr → Word
  | .nop => 0
  | .halt => 0
  | .ldiS _ imm9 => imm9.setWidth 16
  | .ldiW _ imm16 => imm16
  | .ldaS _ imm9 => imm9.setWidth 16
  | .ldaW _ imm16 => imm16
  | .staS _ imm9 => imm9.setWidth 16
  | .staW _ imm16 => imm16
  | .addS _ imm9 => imm9.setWidth 16
  | .addW _ imm16 => imm16
  | .subS _ imm9 => imm9.setWidth 16
  | .subW _ imm16 => imm16
  | .mulS _ imm9 => imm9.setWidth 16
  | .mulW _ imm16 => imm16
  | .divS _ imm9 => imm9.setWidth 16
  | .divW _ imm16 => imm16
  | .cmpS _ imm9 => imm9.setWidth 16
  | .cmpW _ imm16 => imm16
  | .andS _ imm9 => imm9.setWidth 16
  | .andW _ imm16 => imm16
  | .orS _ imm9 => imm9.setWidth 16
  | .orW _ imm16 => imm16
  | .xorS _ imm9 => imm9.setWidth 16
  | .xorW _ imm16 => imm16
  | .not => 0
  | .jmpS _ imm9 => imm9.setWidth 16
  | .jmpW _ imm16 => imm16
  | .jzS _ imm9 => imm9.setWidth 16
  | .jzW _ imm16 => imm16
  | .jnzS _ imm9 => imm9.setWidth 16
  | .jnzW _ imm16 => imm16
  | .jcS _ imm9 => imm9.setWidth 16
  | .jcW _ imm16 => imm16
  | .jncS _ imm9 => imm9.setWidth 16
  | .jncW _ imm16 => imm16
  | .jvS _ imm9 => imm9.setWidth 16
  | .jvW _ imm16 => imm16
  | .jnvS _ imm9 => imm9.setWidth 16
  | .jnvW _ imm16 => imm16
  | .jnS _ imm9 => imm9.setWidth 16
  | .jnW _ imm16 => imm16
  | .jnnS _ imm9 => imm9.setWidth 16
  | .jnnW _ imm16 => imm16

/-- The short-format row of an opcode (R72). -/
def Opcode.shortInstr (o : Opcode) (m : Mode) (imm9 : BitVec 9) : Instr :=
  match o with
  | .nop => .nop
  | .halt => .halt
  | .ldi => .ldiS m imm9
  | .lda => .ldaS m imm9
  | .sta => .staS m imm9
  | .add => .addS m imm9
  | .sub => .subS m imm9
  | .mul => .mulS m imm9
  | .div => .divS m imm9
  | .cmp => .cmpS m imm9
  | .and => .andS m imm9
  | .or => .orS m imm9
  | .xor => .xorS m imm9
  | .not => .not
  | .jmp => .jmpS m imm9
  | .jz => .jzS m imm9
  | .jnz => .jnzS m imm9
  | .jc => .jcS m imm9
  | .jnc => .jncS m imm9
  | .jv => .jvS m imm9
  | .jnv => .jnvS m imm9
  | .jn => .jnS m imm9
  | .jnn => .jnnS m imm9

/-- The wide-format row of an opcode (R73); an opcode of arity 0 has one row only. -/
def Opcode.wideInstr (o : Opcode) (m : Mode) (imm16 : Word) : Instr :=
  match o with
  | .nop => .nop
  | .halt => .halt
  | .ldi => .ldiW m imm16
  | .lda => .ldaW m imm16
  | .sta => .staW m imm16
  | .add => .addW m imm16
  | .sub => .subW m imm16
  | .mul => .mulW m imm16
  | .div => .divW m imm16
  | .cmp => .cmpW m imm16
  | .and => .andW m imm16
  | .or => .orW m imm16
  | .xor => .xorW m imm16
  | .not => .not
  | .jmp => .jmpW m imm16
  | .jz => .jzW m imm16
  | .jnz => .jnzW m imm16
  | .jc => .jcW m imm16
  | .jnc => .jncW m imm16
  | .jv => .jvW m imm16
  | .jnv => .jnvW m imm16
  | .jn => .jnW m imm16
  | .jnn => .jnnW m imm16

/-- The triple (opcode, operand, mode) of R70, with the opcode as its number. -/
structure Triple where
  op : BitVec 5
  operand : Word
  mode : Mode
deriving DecidableEq, Repr

/-- The triple an instruction stands for: both formats of one instruction have the same triple (R82). -/
def Instr.triple (i : Instr) : Triple := { op := i.op.number, operand := i.operand, mode := i.mode }

/-! ### The decoder (R80, R81) -/

/-- The four causes of DecodeError, in the order R80 checks them; the letters are those of R81. -/
inductive DecodeReject where
  /-- (a) the opcode number is unassigned -/
  | unassignedOpcode
  /-- (b) NOP, HALT or NOT with a low bit set -/
  | arityZeroFields
  /-- (c) the mode bit is not the canonical mode -/
  | modeNotCanonical
  /-- (d) wide with `imm9` not zero -/
  | wideImm9NotZero
deriving DecidableEq, Repr

/-- `Decode(w0, w1)` (R80), answering the instruction row, or the cause of the DecodeError. Total; `w1` is ignored when
`w0[10] = 0`. -/
def decode (w0 w1 : Word) : Except DecodeReject Instr :=
  match Opcode.ofNumber (opcField w0) with
  | none => .error .unassignedOpcode
  | some o =>
    if o.arity = 0 then
      if wideBit w0 = true ∨ modeBit w0 = true ∨ imm9Field w0 ≠ 0 then .error .arityZeroFields
      else .ok (o.shortInstr .immediate 0)
    else if modeOfBit (modeBit w0) ≠ o.canonicalMode then .error .modeNotCanonical
    else if wideBit w0 = false then .ok (o.shortInstr (modeOfBit (modeBit w0)) (imm9Field w0))
    else if imm9Field w0 ≠ 0 then .error .wideImm9NotZero
    else .ok (o.wideInstr (modeOfBit (modeBit w0)) w1)

/-- `Decode` as R80 states it: the triple, or DecodeError (here with its cause). -/
def decodeTriple (w0 w1 : Word) : Except DecodeReject Triple := (decode w0 w1).map Instr.triple

/-- The instruction in the decoded latches (10_state.md R29). The effect of EXECUTE depends on the triple alone; `wide`
(the W bit of the instruction in flight) only tells the short row from the wide row, whose meanings are the same, and an
operand that no short row can hold is the wide row's (log 9). `none` for an unassigned opcode number. -/
def instrOfLatches (wide : Bool) (t : Triple) : Option Instr :=
  (Opcode.ofNumber t.op).map fun o =>
    if wide = false ∧ t.operand.toNat ≤ 0x1FF then o.shortInstr t.mode (t.operand.setWidth 9)
    else o.wideInstr t.mode t.operand

/-- The instruction the decoder reads from the `nbits` bits `w` (bit 0 is the least significant bit of the first word, the
second word is bits 31 to 16; every bit above `nbits` is 0); `none` where it refuses. -/
def decodeTableWord (nbits w : Nat) : Option Instr :=
  match decode (BitVec.ofNat 16 (w % 2 ^ nbits)) (BitVec.ofNat 16 (w % 2 ^ nbits / 65536)) with
  | .ok i => some i
  | .error _ => none

/-! ### The encoders (R77 to R79, R82) -/

/-- The first word with the given fields: `(o << 11) | (W << 10) | (M << 9) | imm9` (R72, R73). -/
def firstWord (o : BitVec 5) (wide mode : Bool) (imm9 : BitVec 9) : Word :=
  o ++ BitVec.ofBool wide ++ BitVec.ofBool mode ++ imm9

/-- The short word of an opcode: arity 0 has all low bits zero, arity 1 the canonical mode bit (R72, R78). -/
def Opcode.shortWord (o : Opcode) (imm9 : BitVec 9) : Word :=
  if o.arity = 0 then firstWord o.number false false 0
  else firstWord o.number false (bitOfMode o.canonicalMode) imm9

/-- The wide first word of an opcode (R73, R78). -/
def Opcode.wideWord (o : Opcode) : Word := firstWord o.number true (bitOfMode o.canonicalMode) 0

/-- The words of an instruction row. The mode bit written is the canonical one whatever the instruction's mode (R78). -/
def encode (i : Instr) : List Word :=
  if i.isWide then [i.op.wideWord, i.operand] else [i.op.shortWord (i.operand.setWidth 9)]

/-- The encoder's two errors (R79). They are not runtime errors and never reach the machine (60_exceptions.md R210). -/
inductive EncodeError where
  | invalidInstruction
  | encodingOverflow
deriving DecidableEq, Repr

/-- The body of R77 for an opcode of the table. -/
def Opcode.encodeOperand (o : Opcode) (v : Int) (forceWide : Bool) : Except EncodeError (List Word) :=
  if o.arity = 0 then .ok [o.shortWord 0]
  else if v < 0 ∨ v > 0xFFFF then .error .encodingOverflow
  else if v ≤ 0x1FF ∧ forceWide = false then .ok [o.shortWord (BitVec.ofInt 9 v)]
  else .ok [o.wideWord, BitVec.ofInt 16 v]

/-- `Encode(op, v, force_wide)` of R77, `op` an opcode number. -/
def encodeOp (op : BitVec 5) (v : Int) (forceWide : Bool) : Except EncodeError (List Word) :=
  match Opcode.ofNumber op with
  | none => .error .invalidInstruction
  | some o => o.encodeOperand v forceWide

/-- `Encode(op, v, force_wide)` of R77, `op` a mnemonic, read case-sensitively (log 20). -/
def encodeMnemonic (name : String) (v : Int) (forceWide : Bool) : Except EncodeError (List Word) :=
  match Opcode.ofMnemonic name with
  | none => .error .invalidInstruction
  | some o => o.encodeOperand v forceWide

end Sys2Proof
end

