-- ==== Sys2Proof/Machine/State.lean ====
section
/-! DEFINITION. The state of the machine (10_state.md R20 to R32, R37), its reset, and the ways a step can stop. -/

namespace Sys2Proof.Machine

open Sys2Proof

/-- The flag register: four independent one-bit flags, not packed into a word (R24). -/
structure Flags where
  /-- `Z`, zero -/
  z : Bool
  /-- `C`, carry: the carry-out of an addition, the borrow of a subtraction -/
  c : Bool
  /-- `V`, signed overflow -/
  v : Bool
  /-- `N`, negative -/
  n : Bool
deriving DecidableEq, Repr

/-- The phase the next `step()` performs (R27). -/
inductive Phase where
  | fetch
  | decode
  | execute
  | halted
deriving DecidableEq, Repr

/-- The value of the fault latch: no error, or one of the three runtime errors (R30, 60_exceptions.md R190, R195). -/
inductive ErrorCode where
  | none
  | addressOutOfRange
  | decodeError
  | arithmeticError
deriving DecidableEq, Repr

/-- The phase tag of a snapshot (40_fsm.md R107). -/
inductive Tag where
  | fetch
  | decode
  | execute
deriving DecidableEq, Repr

/-- The memory: `mem_size` and the cells (20_memory.md R50, R51). A cell is one 16-bit word, the smallest addressable unit
(R55). `cells` lists (address, word) with addresses strictly rising and no word 0x0000; an address below the bound that is
not listed holds 0x0000, the value of a cell at creation (R65). -/
structure Memory where
  size : Nat
  cells : List (Nat × Word)
deriving DecidableEq, Repr

/-- One record of the history, with the fields of R107: phase tag, registers (`acc`, every `gpr[i]`, `cycles`, `halted`),
flags, PC, RAM view, and `ir_addr`, from which the host finds the source line. -/
structure Snapshot where
  tag : Tag
  acc : Word
  gpr : List Word
  cycles : BitVec 32
  halted : Bool
  flags : Flags
  pc : Word
  ram : Memory
  irAddr : Word
deriving DecidableEq, Repr

/-- Every piece of state the spec gives the machine (10_state.md sections 2 to 4). -/
structure State where
  /-- accumulator (R21) -/
  acc : Word
  /-- program counter, a word address (R22) -/
  pc : Word
  /-- general registers `gpr[0]` to `gpr[NGPR-1]`; their number is the parameter `NGPR` (R23) -/
  gpr : List Word
  /-- the flags `Z`, `C`, `V`, `N` (R24) -/
  flags : Flags
  /-- cycle counter (R25) -/
  cycles : BitVec 32
  /-- halted flag (R26) -/
  halted : Bool
  /-- phase register (R27) -/
  phase : Phase
  /-- instruction buffer, first word (R28) -/
  ir0 : Word
  /-- instruction buffer, second word (R28) -/
  ir1 : Word
  /-- address `ir0` was read from (R28) -/
  irAddr : Word
  /-- decoded opcode number (R29) -/
  dOp : BitVec 5
  /-- decoded addressing mode (R29) -/
  dMode : Mode
  /-- decoded operand (R29) -/
  dOperand : Word
  /-- fault latch (R30) -/
  fault : ErrorCode
  /-- information of the fault latch (R30) -/
  faultInfo : BitVec 17
  /-- memory and its bound (R31) -/
  mem : Memory
  /-- append-only history of snapshots, oldest first (R32) -/
  history : List Snapshot
deriving DecidableEq, Repr

/-- The ways a step stops outside the spec's own runtime errors (those are next states: they write the fault latch). -/
inductive Fault where
  /-- Raised by the EXECUTE phase when the decoded latch holds an unassigned opcode number. R33 (e) says that no run
  reaches such a state ("Every opcode that can be in `d_op` when `phase = EXECUTE` has a rule", R104). Safe (log 7). -/
  | unassignedLatch
deriving DecidableEq, Repr

/-- The ways an instruction is refused. -/
inductive Refusal where
  /-- Raised by an arm of `exec` that has no meaning yet; no arm is in that case. Safe. -/
  | notModelled (mnemonic : String)
deriving DecidableEq, Repr

/-- A new machine after `reset()` (70_reset_and_hazards.md R223, values of 10_state.md R37): `mem_size = MEM_WORDS`, every
cell 0x0000, `NGPR` registers holding 0x0000. -/
def State.create (p : Config.Params) : State where
  acc := 0x0000
  pc := 0x0000
  gpr := List.replicate p.ngpr 0x0000
  flags := { z := false, c := false, v := false, n := false }
  cycles := 0
  halted := false
  phase := .fetch
  ir0 := 0x0000
  ir1 := 0x0000
  irAddr := 0x0000
  dOp := 0
  dMode := .immediate
  dOperand := 0x0000
  fault := .none
  faultInfo := 0
  mem := { size := p.memWords, cells := [] }
  history := []

/-- The machine right after reset, with the parameter values the spec suggests (logs 2 and 3). -/
def State.reset : State := State.create Config.suggested

end Sys2Proof.Machine
end

