-- ==== Sys2Proof/Machine/Ops.lean ====
section
/-! DEFINITION. The shared operations: memory, the writes of a phase, the frame of EXECUTE, and the taking of a runtime error
(20_memory.md R50 to R54, 40_fsm.md R104 to R107, 60_exceptions.md R193). -/

namespace Sys2Proof.Machine

open Sys2Proof

/-! ### Memory cells -/

/-- The canonical form: addresses strictly rising, no listed word 0x0000, every listed address below the bound, and
1 ≤ mem_size ≤ 65536 (R51). -/
abbrev Memory.wf (m : Memory) : Prop :=
  m.cells.Pairwise (fun p q => p.1 < q.1) ∧ (∀ p ∈ m.cells, p.2 ≠ 0 ∧ p.1 < m.size) ∧ 1 ≤ m.size ∧ m.size ≤ 65536

/-- The word an unlisted address reads as: the creation value of a cell (R65, log 5). -/
def unlistedWord : Word := 0x0000

/-- The word listed at an address, else the unlisted word. -/
def cellsRead (a : Nat) : List (Nat × Word) → Word
  | [] => unlistedWord
  | p :: rest => if p.1 = a then p.2 else cellsRead a rest

/-- Remove an address from the list. -/
def cellsErase (a : Nat) : List (Nat × Word) → List (Nat × Word)
  | [] => []
  | p :: rest => if p.1 = a then cellsErase a rest else p :: cellsErase a rest

/-- Put a word at its place in the rising list. -/
def cellsInsert (a : Nat) (v : Word) : List (Nat × Word) → List (Nat × Word)
  | [] => [(a, v)]
  | p :: rest =>
    if a < p.1 then (a, v) :: p :: rest
    else if p.1 = a then (a, v) :: rest
    else p :: cellsInsert a v rest

/-- Write one cell, keeping the canonical form: the unlisted word is not listed. -/
def cellsWrite (a : Nat) (v : Word) (l : List (Nat × Word)) : List (Nat × Word) :=
  if v = unlistedWord then cellsErase a l else cellsInsert a v l

/-- `mem[a]` for a valid address (`a < mem_size`, R51), `none` beyond the bound: the model's read of one cell. -/
def Memory.cell (m : Memory) (a : Nat) : Option Word :=
  if a < m.size then some (cellsRead a m.cells) else none

/-- `mem[a] <- v`, no other cell changed (R53); the bound is the caller's check. -/
def Memory.put (m : Memory) (a : Nat) (v : Word) : Memory := { m with cells := cellsWrite a v m.cells }

/-- `mem[base + k] <- words[k]` for every k (R66). -/
def Memory.putWords (m : Memory) (base : Nat) : List Word → Memory
  | [] => m
  | w :: ws => (m.put base w).putWords (base + 1) ws

/-- Growth to at least `n` cells: existing cells kept, new cells 0x0000, never smaller (R54). -/
def Memory.grow (m : Memory) (n : Nat) : Memory := { m with size := max m.size n }

/-- Every cell 0x0000, the bound unchanged (R67). -/
def Memory.clear (m : Memory) : Memory := { m with cells := [] }

/-! ### Runtime errors (60_exceptions.md) -/

/-- `raise E(info)` (00_scope.md R12). -/
structure Raise where
  code : ErrorCode
  info : BitVec 17
deriving DecidableEq, Repr

/-- The code numbers of R195. -/
def ErrorCode.number : ErrorCode → BitVec 2
  | .none => 0
  | .addressOutOfRange => 1
  | .decodeError => 2
  | .arithmeticError => 3

/-- The suggested coding of the phase register (R27, D25); no rule depends on it. -/
def Phase.number : Phase → BitVec 2
  | .fetch => 0
  | .decode => 1
  | .execute => 2
  | .halted => 3

/-- The spelling of the phase tags (R107, D23). -/
def Tag.text : Tag → String
  | .fetch => "fetch"
  | .decode => "decode"
  | .execute => "execute"

/-- Taking a runtime error (R193): the fault latch is written and nothing else changes. There is no return from it (R201);
only `hostReset` clears the latch. -/
def raiseError (s : State) (r : Raise) : State := { s with fault := r.code, faultInfo := r.info }

/-- The end of a phase (R106): if it raised, no write of it takes effect and the error is taken; else its writes are the
next state. -/
def commit (s : State) : Except Raise State → Host.Outcome State Fault Refusal
  | .ok t => .next t
  | .error r => .next (raiseError s r)

/-! ### Memory access by the core -/

/-- `MemRead(a, 1)` with a 17-bit address (R52). -/
def memRead (s : State) (a : Addr17) : Except Raise Word :=
  match s.mem.cell a.toNat with
  | some w => .ok w
  | none => .error { code := .addressOutOfRange, info := a }

/-- `MemWrite(a, 1, v)` with a 16-bit address (R53): the core never grows the memory. -/
def memWrite (s : State) (a : Word) (v : Word) : Except Raise Memory :=
  if a.toNat < s.mem.size then .ok (s.mem.put a.toNat v)
  else .error { code := .addressOutOfRange, info := a.setWidth 17 }

/-! ### Register writes of a phase -/

/-- `acc <- v`. -/
def State.withAcc (s : State) (v : Word) : State := { s with acc := v }

/-- `pc <- t`. -/
def State.withPc (s : State) (t : Word) : State := { s with pc := t }

/-- The flag register's new content. -/
def State.withFlags (s : State) (f : Flags) : State := { s with flags := f }

/-- The memory's new content. -/
def State.withMem (s : State) (m : Memory) : State := { s with mem := m }

/-- `halted <- true` (R26). -/
def State.withHalted (s : State) : State := { s with halted := true }

/-- The record of R107 for a state. -/
def snapshotOf (tag : Tag) (s : State) : Snapshot where
  tag := tag
  acc := s.acc
  gpr := s.gpr
  cycles := s.cycles
  halted := s.halted
  flags := s.flags
  pc := s.pc
  ram := s.mem
  irAddr := s.irAddr

/-- `Snapshot(tag)` (R107): appends one record, taken after the other writes of the phase. -/
def takeSnapshot (tag : Tag) (s : State) : State := { s with history := s.history ++ [snapshotOf tag s] }

/-! ### The frame of EXECUTE (R104) -/

/-- The writes R104 adds to an instruction's effect: `cycles`, `phase`, and the "execute" snapshot. -/
def finishExecute (next : Phase) (s : State) : State :=
  takeSnapshot .execute { s with cycles := s.cycles + 1, phase := next }

/-- `do_execute()` (R104) with the effect of one instruction: the effect may raise, and then nothing of the phase happens. -/
def executePhase (next : Phase) (effect : State → Except Raise State) (s : State) : Host.Outcome State Fault Refusal :=
  commit s ((effect s).map (finishExecute next))

end Sys2Proof.Machine
end

