-- ==== Sys2Proof/Machine/Operands.lean ====
section
/-! DEFINITION. The operand forms: IMMEDIATE and DIRECT, all there are (40_fsm.md R105, 42_load_store.md R143). -/

namespace Sys2Proof.Machine

open Sys2Proof

/-- `EffAddr()` (R105): the operand itself, absolute, no base, no index. -/
def effAddr (operand : Word) : Word := operand

/-- `OperandValue()` (R105): the literal, or the contents of the cell the operand names, which may raise. -/
def operandValue (m : Mode) (operand : Word) (s : State) : Except Raise Word :=
  match m with
  | .immediate => .ok operand
  | .direct => memRead s ((effAddr operand).setWidth 17)

end Sys2Proof.Machine
end

