-- ==== Sys2Proof/Machine/Flags.lean ====
section
/-! DEFINITION. The flag unit and the ALU (41_flag_unit_alu.md R120 to R133), and the flag write mask (10_state.md R35). -/

namespace Sys2Proof.Machine

open Sys2Proof

/-- `signed16(v)` (00_scope.md R10): two's complement. -/
def signed16 (v : Word) : Int := if v.toNat < 0x8000 then (v.toNat : Int) else (v.toNat : Int) - 65536

/-- An exact integer lies outside -32768 to 32767. -/
def outsideSigned16 (x : Int) : Bool := decide (x < -32768 ∨ 32767 < x)

/-- The operation kinds of the flag unit (R120). -/
inductive FlagKind where
  | add
  | sub
  | mul
  | div
  | logic
deriving DecidableEq, Repr

/-- `Co` (R123, R124, R127, R128). For LOGIC the output is not used (R120): the mask keeps the old flag (log 10). -/
def carryOut (k : FlagKind) (a b : Word) : Bool :=
  match k with
  | .add => decide (a.toNat + b.toNat ≥ 65536)
  | .sub => decide (a.toNat < b.toNat)
  | .mul => decide (a.toNat * b.toNat > 0xFFFF)
  | .div => false
  | .logic => false

/-- `Vo` (R125, R126, R127, R128). For LOGIC the output is not used (R120): the mask keeps the old flag (log 10). -/
def overflowOut (k : FlagKind) (a b : Word) : Bool :=
  match k with
  | .add => outsideSigned16 (signed16 a + signed16 b)
  | .sub => outsideSigned16 (signed16 a - signed16 b)
  | .mul => outsideSigned16 (signed16 a * signed16 b)
  | .div => false
  | .logic => false

/-- The flag unit (R120): pure, from the kind, the operands and the result. `Zo` by R121, `No` by R122. -/
def flagUnit (k : FlagKind) (a b r : Word) : Flags where
  z := decide (r = 0x0000)
  c := carryOut k a b
  v := overflowOut k a b
  n := r.getLsbD 15

/-- The operations of the ALU (R130). -/
inductive AluOp where
  | add
  | sub
  | mul
  | div
  | and
  | or
  | xor
  | not
deriving DecidableEq, Repr

/-- The flag kind column of R130. -/
def AluOp.kind : AluOp → FlagKind
  | .add => .add
  | .sub => .sub
  | .mul => .mul
  | .div => .div
  | .and => .logic
  | .or => .logic
  | .xor => .logic
  | .not => .logic

/-- A flag write mask (R35): `zn` enables Z and N, `cv` enables C and V. -/
structure FlagMask where
  zn : Bool
  cv : Bool
deriving DecidableEq, Repr

/-- The mask column of R130: all four flags, or Z and N only. -/
def AluOp.mask (f : AluOp) : FlagMask := { zn := true, cv := decide (f.kind ≠ .logic) }

/-- The result column of R130; `none` is the error column: DIV with `b = 0` (R133). -/
def aluResult (f : AluOp) (a b : Word) : Option Word :=
  match f with
  | .add => some (BitVec.ofNat 16 ((a.toNat + b.toNat) % 65536))
  | .sub => some (BitVec.ofNat 16 (if a.toNat ≥ b.toNat then a.toNat - b.toNat else a.toNat + 65536 - b.toNat))
  | .mul => some (BitVec.ofNat 16 (a.toNat * b.toNat % 65536))
  | .div => if b = 0x0000 then none else some (BitVec.ofNat 16 (a.toNat / b.toNat))
  | .and => some (a &&& b)
  | .or => some (a ||| b)
  | .xor => some (a ^^^ b)
  | .not => some (BitVec.ofNat 16 (0xFFFF - a.toNat))

/-- The outputs of the ALU (R130). -/
structure AluOut where
  r : Word
  flags : Flags
  mask : FlagMask
deriving DecidableEq, Repr

/-- `ALU(f, a, b)` (R130): result, flag unit outputs and mask, or `none` where it reports division by zero. -/
def alu (f : AluOp) (a b : Word) : Option AluOut :=
  (aluResult f a b).map fun r => { r := r, flags := flagUnit f.kind a b r, mask := f.mask }

/-- The masked write of the flag register (R35, R131): a flag whose mask bit is 0 keeps its value. -/
def maskedFlags (m : FlagMask) (out old : Flags) : Flags where
  z := if m.zn then out.z else old.z
  c := if m.cv then out.c else old.c
  v := if m.cv then out.v else old.v
  n := if m.zn then out.n else old.n

/-- The ALU on the accumulator and a right operand; division by zero raises ArithmeticError with the address of the
instruction in flight (R133, R153, 60_exceptions.md R196). -/
def aluOrRaise (f : AluOp) (b : Word) (s : State) : Except Raise AluOut :=
  match alu f s.acc b with
  | some out => .ok out
  | none => .error { code := .arithmeticError, info := s.irAddr.setWidth 17 }

/-- The flag writes of an ALU instruction (R131). -/
def writeFlags (out : AluOut) (s : State) : State := s.withFlags (maskedFlags out.mask out.flags s.flags)

/-- An ALU instruction with a memory operand: `b = OperandValue()`, then `acc <- r` and the masked flags (R150 to R153,
R161 to R163). The address check precedes the zero check (60_exceptions.md R197). -/
def aluEffect (f : AluOp) (m : Mode) (operand : Word) (s : State) : Except Raise State := do
  let b ← operandValue m operand s
  let out ← aluOrRaise f b s
  .ok ((writeFlags out s).withAcc out.r)

end Sys2Proof.Machine
end

