-- ==== Sys2Proof/Machine/Arithmetic.lean ====
section
/-! DEFINITION. ADD, SUB, MUL, DIV, CMP (43_arithmetic.md R150 to R154): the accumulator is the left operand (D9). -/

namespace Sys2Proof.Machine

open Sys2Proof

/-- `effect(ADD)` (R150). -/
def addEffect (m : Mode) (operand : Word) (s : State) : Except Raise State := aluEffect .add m operand s

/-- `effect(SUB)` (R151). -/
def subEffect (m : Mode) (operand : Word) (s : State) : Except Raise State := aluEffect .sub m operand s

/-- `effect(MUL)` (R152). -/
def mulEffect (m : Mode) (operand : Word) (s : State) : Except Raise State := aluEffect .mul m operand s

/-- `effect(DIV)` (R153). -/
def divEffect (m : Mode) (operand : Word) (s : State) : Except Raise State := aluEffect .div m operand s

/-- `effect(CMP)` (R154): the flags of SUB, the result discarded. -/
def cmpEffect (m : Mode) (operand : Word) (s : State) : Except Raise State := do
  let b ← operandValue m operand s
  let out ← aluOrRaise .sub b s
  .ok (writeFlags out s)

/-- ADD, short row (R150, R72): its effect in the EXECUTE frame of R104. -/
def execAddS (m : Mode) (imm9 : BitVec 9) (s : State) : Host.Outcome State Fault Refusal :=
  executePhase .fetch (addEffect m (imm9.setWidth 16)) s

/-- ADD, wide row (R150, R73): its effect in the EXECUTE frame of R104. -/
def execAddW (m : Mode) (imm16 : Word) (s : State) : Host.Outcome State Fault Refusal :=
  executePhase .fetch (addEffect m imm16) s

/-- SUB, short row (R151, R72): its effect in the EXECUTE frame of R104. -/
def execSubS (m : Mode) (imm9 : BitVec 9) (s : State) : Host.Outcome State Fault Refusal :=
  executePhase .fetch (subEffect m (imm9.setWidth 16)) s

/-- SUB, wide row (R151, R73): its effect in the EXECUTE frame of R104. -/
def execSubW (m : Mode) (imm16 : Word) (s : State) : Host.Outcome State Fault Refusal :=
  executePhase .fetch (subEffect m imm16) s

/-- MUL, short row (R152, R72): its effect in the EXECUTE frame of R104. -/
def execMulS (m : Mode) (imm9 : BitVec 9) (s : State) : Host.Outcome State Fault Refusal :=
  executePhase .fetch (mulEffect m (imm9.setWidth 16)) s

/-- MUL, wide row (R152, R73): its effect in the EXECUTE frame of R104. -/
def execMulW (m : Mode) (imm16 : Word) (s : State) : Host.Outcome State Fault Refusal :=
  executePhase .fetch (mulEffect m imm16) s

/-- DIV, short row (R153, R72): its effect in the EXECUTE frame of R104. -/
def execDivS (m : Mode) (imm9 : BitVec 9) (s : State) : Host.Outcome State Fault Refusal :=
  executePhase .fetch (divEffect m (imm9.setWidth 16)) s

/-- DIV, wide row (R153, R73): its effect in the EXECUTE frame of R104. -/
def execDivW (m : Mode) (imm16 : Word) (s : State) : Host.Outcome State Fault Refusal :=
  executePhase .fetch (divEffect m imm16) s

/-- CMP, short row (R154, R72): its effect in the EXECUTE frame of R104. -/
def execCmpS (m : Mode) (imm9 : BitVec 9) (s : State) : Host.Outcome State Fault Refusal :=
  executePhase .fetch (cmpEffect m (imm9.setWidth 16)) s

/-- CMP, wide row (R154, R73): its effect in the EXECUTE frame of R104. -/
def execCmpW (m : Mode) (imm16 : Word) (s : State) : Host.Outcome State Fault Refusal :=
  executePhase .fetch (cmpEffect m imm16) s

end Sys2Proof.Machine
end

