-- ==== Sys2Proof/Machine/Control.lean ====
section
/-! DEFINITION. JMP, JZ, JNZ, JC, JNC, JV, JNV, JN, JNN (45_control.md R170 to R182). FETCH has already advanced `pc` past the
instruction; a jump not taken leaves it there. The target is not checked (R180). -/

namespace Sys2Proof.Machine

open Sys2Proof

/-- `if taken: pc <- OperandValue()`. -/
def jumpEffect (taken : Bool) (m : Mode) (operand : Word) (s : State) : Except Raise State :=
  match taken with
  | true => do
    let t ← operandValue m operand s
    .ok (s.withPc t)
  | false => .ok s

/-- `effect(JMP)` (R170): taken always. -/
def jmpEffect (m : Mode) (operand : Word) (s : State) : Except Raise State := jumpEffect true m operand s

/-- `effect(JZ)` (R171): taken when `Z = 1`. -/
def jzEffect (m : Mode) (operand : Word) (s : State) : Except Raise State := jumpEffect s.flags.z m operand s

/-- `effect(JNZ)` (R172): taken when `Z = 0`. -/
def jnzEffect (m : Mode) (operand : Word) (s : State) : Except Raise State := jumpEffect (!s.flags.z) m operand s

/-- `effect(JC)` (R173): taken when `C = 1`. -/
def jcEffect (m : Mode) (operand : Word) (s : State) : Except Raise State := jumpEffect s.flags.c m operand s

/-- `effect(JNC)` (R174): taken when `C = 0`. -/
def jncEffect (m : Mode) (operand : Word) (s : State) : Except Raise State := jumpEffect (!s.flags.c) m operand s

/-- `effect(JV)` (R175): taken when `V = 1`. -/
def jvEffect (m : Mode) (operand : Word) (s : State) : Except Raise State := jumpEffect s.flags.v m operand s

/-- `effect(JNV)` (R176): taken when `V = 0`. -/
def jnvEffect (m : Mode) (operand : Word) (s : State) : Except Raise State := jumpEffect (!s.flags.v) m operand s

/-- `effect(JN)` (R177): taken when `N = 1`. -/
def jnEffect (m : Mode) (operand : Word) (s : State) : Except Raise State := jumpEffect s.flags.n m operand s

/-- `effect(JNN)` (R178): taken when `N = 0`. -/
def jnnEffect (m : Mode) (operand : Word) (s : State) : Except Raise State := jumpEffect (!s.flags.n) m operand s

/-- JMP, short row (R170, R72): its effect in the EXECUTE frame of R104. -/
def execJmpS (m : Mode) (imm9 : BitVec 9) (s : State) : Host.Outcome State Fault Refusal :=
  executePhase .fetch (jmpEffect m (imm9.setWidth 16)) s

/-- JMP, wide row (R170, R73): its effect in the EXECUTE frame of R104. -/
def execJmpW (m : Mode) (imm16 : Word) (s : State) : Host.Outcome State Fault Refusal :=
  executePhase .fetch (jmpEffect m imm16) s

/-- JZ, short row (R171, R72): its effect in the EXECUTE frame of R104. -/
def execJzS (m : Mode) (imm9 : BitVec 9) (s : State) : Host.Outcome State Fault Refusal :=
  executePhase .fetch (jzEffect m (imm9.setWidth 16)) s

/-- JZ, wide row (R171, R73): its effect in the EXECUTE frame of R104. -/
def execJzW (m : Mode) (imm16 : Word) (s : State) : Host.Outcome State Fault Refusal :=
  executePhase .fetch (jzEffect m imm16) s

/-- JNZ, short row (R172, R72): its effect in the EXECUTE frame of R104. -/
def execJnzS (m : Mode) (imm9 : BitVec 9) (s : State) : Host.Outcome State Fault Refusal :=
  executePhase .fetch (jnzEffect m (imm9.setWidth 16)) s

/-- JNZ, wide row (R172, R73): its effect in the EXECUTE frame of R104. -/
def execJnzW (m : Mode) (imm16 : Word) (s : State) : Host.Outcome State Fault Refusal :=
  executePhase .fetch (jnzEffect m imm16) s

/-- JC, short row (R173, R72): its effect in the EXECUTE frame of R104. -/
def execJcS (m : Mode) (imm9 : BitVec 9) (s : State) : Host.Outcome State Fault Refusal :=
  executePhase .fetch (jcEffect m (imm9.setWidth 16)) s

/-- JC, wide row (R173, R73): its effect in the EXECUTE frame of R104. -/
def execJcW (m : Mode) (imm16 : Word) (s : State) : Host.Outcome State Fault Refusal :=
  executePhase .fetch (jcEffect m imm16) s

/-- JNC, short row (R174, R72): its effect in the EXECUTE frame of R104. -/
def execJncS (m : Mode) (imm9 : BitVec 9) (s : State) : Host.Outcome State Fault Refusal :=
  executePhase .fetch (jncEffect m (imm9.setWidth 16)) s

/-- JNC, wide row (R174, R73): its effect in the EXECUTE frame of R104. -/
def execJncW (m : Mode) (imm16 : Word) (s : State) : Host.Outcome State Fault Refusal :=
  executePhase .fetch (jncEffect m imm16) s

/-- JV, short row (R175, R72): its effect in the EXECUTE frame of R104. -/
def execJvS (m : Mode) (imm9 : BitVec 9) (s : State) : Host.Outcome State Fault Refusal :=
  executePhase .fetch (jvEffect m (imm9.setWidth 16)) s

/-- JV, wide row (R175, R73): its effect in the EXECUTE frame of R104. -/
def execJvW (m : Mode) (imm16 : Word) (s : State) : Host.Outcome State Fault Refusal :=
  executePhase .fetch (jvEffect m imm16) s

/-- JNV, short row (R176, R72): its effect in the EXECUTE frame of R104. -/
def execJnvS (m : Mode) (imm9 : BitVec 9) (s : State) : Host.Outcome State Fault Refusal :=
  executePhase .fetch (jnvEffect m (imm9.setWidth 16)) s

/-- JNV, wide row (R176, R73): its effect in the EXECUTE frame of R104. -/
def execJnvW (m : Mode) (imm16 : Word) (s : State) : Host.Outcome State Fault Refusal :=
  executePhase .fetch (jnvEffect m imm16) s

/-- JN, short row (R177, R72): its effect in the EXECUTE frame of R104. -/
def execJnS (m : Mode) (imm9 : BitVec 9) (s : State) : Host.Outcome State Fault Refusal :=
  executePhase .fetch (jnEffect m (imm9.setWidth 16)) s

/-- JN, wide row (R177, R73): its effect in the EXECUTE frame of R104. -/
def execJnW (m : Mode) (imm16 : Word) (s : State) : Host.Outcome State Fault Refusal :=
  executePhase .fetch (jnEffect m imm16) s

/-- JNN, short row (R178, R72): its effect in the EXECUTE frame of R104. -/
def execJnnS (m : Mode) (imm9 : BitVec 9) (s : State) : Host.Outcome State Fault Refusal :=
  executePhase .fetch (jnnEffect m (imm9.setWidth 16)) s

/-- JNN, wide row (R178, R73): its effect in the EXECUTE frame of R104. -/
def execJnnW (m : Mode) (imm16 : Word) (s : State) : Host.Outcome State Fault Refusal :=
  executePhase .fetch (jnnEffect m imm16) s

end Sys2Proof.Machine
end

