-- ==== Sys2Proof/Machine/LoadStore.lean ====
section
/-! DEFINITION. LDI, LDA, STA (42_load_store.md R140 to R143). No flag is written (D12). -/

namespace Sys2Proof.Machine

open Sys2Proof

/-- A load: `acc <- OperandValue()`. -/
def loadEffect (m : Mode) (operand : Word) (s : State) : Except Raise State := do
  let v ← operandValue m operand s
  .ok (s.withAcc v)

/-- `effect(LDI)` (R140). -/
def ldiEffect (m : Mode) (operand : Word) (s : State) : Except Raise State := loadEffect m operand s

/-- `effect(LDA)` (R141). -/
def ldaEffect (m : Mode) (operand : Word) (s : State) : Except Raise State := loadEffect m operand s

/-- `effect(STA)` (R142): `MemWrite(EffAddr(), 1, acc)`; the operand is an address whatever the mode says. -/
def staEffect (_m : Mode) (operand : Word) (s : State) : Except Raise State := do
  let mem ← memWrite s (effAddr operand) s.acc
  .ok (s.withMem mem)

/-- LDI, short row (R140, R72): its effect in the EXECUTE frame of R104. -/
def execLdiS (m : Mode) (imm9 : BitVec 9) (s : State) : Host.Outcome State Fault Refusal :=
  executePhase .fetch (ldiEffect m (imm9.setWidth 16)) s

/-- LDI, wide row (R140, R73): its effect in the EXECUTE frame of R104. -/
def execLdiW (m : Mode) (imm16 : Word) (s : State) : Host.Outcome State Fault Refusal :=
  executePhase .fetch (ldiEffect m imm16) s

/-- LDA, short row (R141, R72): its effect in the EXECUTE frame of R104. -/
def execLdaS (m : Mode) (imm9 : BitVec 9) (s : State) : Host.Outcome State Fault Refusal :=
  executePhase .fetch (ldaEffect m (imm9.setWidth 16)) s

/-- LDA, wide row (R141, R73): its effect in the EXECUTE frame of R104. -/
def execLdaW (m : Mode) (imm16 : Word) (s : State) : Host.Outcome State Fault Refusal :=
  executePhase .fetch (ldaEffect m imm16) s

/-- STA, short row (R142, R72): its effect in the EXECUTE frame of R104. -/
def execStaS (m : Mode) (imm9 : BitVec 9) (s : State) : Host.Outcome State Fault Refusal :=
  executePhase .fetch (staEffect m (imm9.setWidth 16)) s

/-- STA, wide row (R142, R73): its effect in the EXECUTE frame of R104. -/
def execStaW (m : Mode) (imm16 : Word) (s : State) : Host.Outcome State Fault Refusal :=
  executePhase .fetch (staEffect m imm16) s

end Sys2Proof.Machine
end

