-- ==== Sys2Proof/Machine/Logic.lean ====
section
/-! DEFINITION. NOT, AND, OR, XOR (44_logic.md R160 to R163): Z and N written, C and V kept. -/

namespace Sys2Proof.Machine

open Sys2Proof

/-- `effect(NOT)` (R160): `ALU(NOT, acc, 0)`, no memory read. -/
def notEffect (s : State) : Except Raise State := do
  let out ← aluOrRaise .not 0x0000 s
  .ok ((writeFlags out s).withAcc out.r)

/-- `effect(AND)` (R161). -/
def andEffect (m : Mode) (operand : Word) (s : State) : Except Raise State := aluEffect .and m operand s

/-- `effect(OR)` (R162). -/
def orEffect (m : Mode) (operand : Word) (s : State) : Except Raise State := aluEffect .or m operand s

/-- `effect(XOR)` (R163). -/
def xorEffect (m : Mode) (operand : Word) (s : State) : Except Raise State := aluEffect .xor m operand s

/-- NOT (R160): its effect in the EXECUTE frame of R104. -/
def execNot (s : State) : Host.Outcome State Fault Refusal :=
  executePhase .fetch notEffect s

/-- AND, short row (R161, R72): its effect in the EXECUTE frame of R104. -/
def execAndS (m : Mode) (imm9 : BitVec 9) (s : State) : Host.Outcome State Fault Refusal :=
  executePhase .fetch (andEffect m (imm9.setWidth 16)) s

/-- AND, wide row (R161, R73): its effect in the EXECUTE frame of R104. -/
def execAndW (m : Mode) (imm16 : Word) (s : State) : Host.Outcome State Fault Refusal :=
  executePhase .fetch (andEffect m imm16) s

/-- OR, short row (R162, R72): its effect in the EXECUTE frame of R104. -/
def execOrS (m : Mode) (imm9 : BitVec 9) (s : State) : Host.Outcome State Fault Refusal :=
  executePhase .fetch (orEffect m (imm9.setWidth 16)) s

/-- OR, wide row (R162, R73): its effect in the EXECUTE frame of R104. -/
def execOrW (m : Mode) (imm16 : Word) (s : State) : Host.Outcome State Fault Refusal :=
  executePhase .fetch (orEffect m imm16) s

/-- XOR, short row (R163, R72): its effect in the EXECUTE frame of R104. -/
def execXorS (m : Mode) (imm9 : BitVec 9) (s : State) : Host.Outcome State Fault Refusal :=
  executePhase .fetch (xorEffect m (imm9.setWidth 16)) s

/-- XOR, wide row (R163, R73): its effect in the EXECUTE frame of R104. -/
def execXorW (m : Mode) (imm16 : Word) (s : State) : Host.Outcome State Fault Refusal :=
  executePhase .fetch (xorEffect m imm16) s

end Sys2Proof.Machine
end

