-- ==== Sys2Proof/Machine/System.lean ====
section
/-! DEFINITION. HALT and NOP (46_system.md R185, R186). -/

namespace Sys2Proof.Machine

open Sys2Proof

/-- `effect(HALT)` (R185): `halted <- true`; the frame sets the phase to HALTED. -/
def haltEffect (s : State) : Except Raise State := .ok s.withHalted

/-- `effect(NOP)` (R186): nothing. -/
def nopEffect (s : State) : Except Raise State := .ok s

/-- HALT (R185): its effect in the EXECUTE frame of R104. -/
def execHalt (s : State) : Host.Outcome State Fault Refusal :=
  executePhase .halted haltEffect s

/-- NOP (R186): its effect in the EXECUTE frame of R104. -/
def execNop (s : State) : Host.Outcome State Fault Refusal :=
  executePhase .fetch nopEffect s

end Sys2Proof.Machine
end

