-- ==== Sys2Proof/Machine/Dispatch.lean ====
section
/-! DEFINITION. The dispatch of EXECUTE: one arm per constructor of `Instr`, each one call of its meaning (40_fsm.md R104). -/

namespace Sys2Proof.Machine

def exec (i : Instr) (s : State) : Host.Outcome State Fault Refusal :=
  match i with
  | .nop => Sys2Proof.Machine.execNop s
  | .halt => Sys2Proof.Machine.execHalt s
  | .ldiS m imm9 => Sys2Proof.Machine.execLdiS m imm9 s
  | .ldiW m imm16 => Sys2Proof.Machine.execLdiW m imm16 s
  | .ldaS m imm9 => Sys2Proof.Machine.execLdaS m imm9 s
  | .ldaW m imm16 => Sys2Proof.Machine.execLdaW m imm16 s
  | .staS m imm9 => Sys2Proof.Machine.execStaS m imm9 s
  | .staW m imm16 => Sys2Proof.Machine.execStaW m imm16 s
  | .addS m imm9 => Sys2Proof.Machine.execAddS m imm9 s
  | .addW m imm16 => Sys2Proof.Machine.execAddW m imm16 s
  | .subS m imm9 => Sys2Proof.Machine.execSubS m imm9 s
  | .subW m imm16 => Sys2Proof.Machine.execSubW m imm16 s
  | .mulS m imm9 => Sys2Proof.Machine.execMulS m imm9 s
  | .mulW m imm16 => Sys2Proof.Machine.execMulW m imm16 s
  | .divS m imm9 => Sys2Proof.Machine.execDivS m imm9 s
  | .divW m imm16 => Sys2Proof.Machine.execDivW m imm16 s
  | .cmpS m imm9 => Sys2Proof.Machine.execCmpS m imm9 s
  | .cmpW m imm16 => Sys2Proof.Machine.execCmpW m imm16 s
  | .andS m imm9 => Sys2Proof.Machine.execAndS m imm9 s
  | .andW m imm16 => Sys2Proof.Machine.execAndW m imm16 s
  | .orS m imm9 => Sys2Proof.Machine.execOrS m imm9 s
  | .orW m imm16 => Sys2Proof.Machine.execOrW m imm16 s
  | .xorS m imm9 => Sys2Proof.Machine.execXorS m imm9 s
  | .xorW m imm16 => Sys2Proof.Machine.execXorW m imm16 s
  | .not => Sys2Proof.Machine.execNot s
  | .jmpS m imm9 => Sys2Proof.Machine.execJmpS m imm9 s
  | .jmpW m imm16 => Sys2Proof.Machine.execJmpW m imm16 s
  | .jzS m imm9 => Sys2Proof.Machine.execJzS m imm9 s
  | .jzW m imm16 => Sys2Proof.Machine.execJzW m imm16 s
  | .jnzS m imm9 => Sys2Proof.Machine.execJnzS m imm9 s
  | .jnzW m imm16 => Sys2Proof.Machine.execJnzW m imm16 s
  | .jcS m imm9 => Sys2Proof.Machine.execJcS m imm9 s
  | .jcW m imm16 => Sys2Proof.Machine.execJcW m imm16 s
  | .jncS m imm9 => Sys2Proof.Machine.execJncS m imm9 s
  | .jncW m imm16 => Sys2Proof.Machine.execJncW m imm16 s
  | .jvS m imm9 => Sys2Proof.Machine.execJvS m imm9 s
  | .jvW m imm16 => Sys2Proof.Machine.execJvW m imm16 s
  | .jnvS m imm9 => Sys2Proof.Machine.execJnvS m imm9 s
  | .jnvW m imm16 => Sys2Proof.Machine.execJnvW m imm16 s
  | .jnS m imm9 => Sys2Proof.Machine.execJnS m imm9 s
  | .jnW m imm16 => Sys2Proof.Machine.execJnW m imm16 s
  | .jnnS m imm9 => Sys2Proof.Machine.execJnnS m imm9 s
  | .jnnW m imm16 => Sys2Proof.Machine.execJnnW m imm16 s

end Sys2Proof.Machine
end

