-- ==== Sys2Proof/Machine/Phases.lean ====
section
/-! DEFINITION. The phase machine: FETCH, DECODE, EXECUTE and the step function (40_fsm.md R100 to R110). -/

namespace Sys2Proof.Machine

open Sys2Proof

/-- The writes of a completed FETCH (R102): the buffer, the advanced `pc` (modulo 65536), the phase, the snapshot. -/
def fetched (s : State) (w0 w1 : Word) (len : Nat) : State :=
  takeSnapshot .fetch
    { s with ir0 := w0, ir1 := w1, irAddr := s.pc, pc := BitVec.ofNat 16 ((s.pc.toNat + len) % 65536), phase := .decode }

/-- `do_fetch()` (R102): the second word is read at `pc + 1` in 17 bits, not wrapped, exactly when `w0[10] = 1`. -/
def doFetch (s : State) : Except Raise State := do
  let w0 ← memRead s (s.pc.setWidth 17)
  if wideBit w0 then do
    let w1 ← memRead s (s.pc.setWidth 17 + 1)
    .ok (fetched s w0 w1 2)
  else
    .ok (fetched s w0 0x0000 1)

/-- The writes of a completed DECODE (R103): the three latches, the phase, the snapshot. -/
def decoded (s : State) (t : Triple) : State :=
  takeSnapshot .decode { s with dOp := t.op, dMode := t.mode, dOperand := t.operand, phase := .execute }

/-- `do_decode()` (R103): DIRECT operands are not dereferenced here. -/
def doDecode (s : State) : Except Raise State :=
  match decodeTriple s.ir0 s.ir1 with
  | .ok t => .ok (decoded s t)
  | .error _ => .error { code := .decodeError, info := s.ir0.setWidth 17 }

/-- The triple in the decoded latches (10_state.md R29). -/
def latchTriple (s : State) : Triple := { op := s.dOp, operand := s.dOperand, mode := s.dMode }

/-- `do_execute()` (R104): the instruction the decoded latches hold. -/
def executeLatched (s : State) : Host.Outcome State Fault Refusal :=
  match instrOfLatches (wideBit s.ir0) (latchTriple s) with
  | some i => exec i s
  | none => .fault .unassignedLatch

/-- `step()` (R101): a no-op when the fault latch is set (R109) or the machine is halted (R108), else the one phase that
`phase` names. In the phase HALTED the step is a no-op (table of R100). -/
def stepPhase (s : State) : Host.Outcome State Fault Refusal :=
  if s.fault ≠ .none then .next s
  else if s.halted = true then .next s
  else
    match s.phase with
    | .fetch => commit s (doFetch s)
    | .decode => commit s (doDecode s)
    | .execute => executeLatched s
    | .halted => .next s

/-! ### Placing an instruction for the next step -/

/-- The two words stored where the next FETCH reads them, the machine ready to fetch (log 1). The memory is made large
enough for them where the address space has room; a second word at 0x10000 has no cell. -/
def placeWords (s : State) (w0 w1 : Word) : State :=
  let a := s.pc.toNat
  let m := (s.mem.grow (min 65536 (a + 2))).put a w0
  { s with
    mem := if a + 1 < 65536 then m.put (a + 1) w1 else m
    phase := .fetch
    halted := false
    fault := .none
    faultInfo := 0 }

/-- The FETCH and DECODE phases of the instruction at `pc`, as far as they complete: after them the very next step is its
EXECUTE (or the phase that fails). -/
def runFrontEnd (s : State) : State :=
  match doFetch s with
  | .error _ => s
  | .ok t =>
    match doDecode t with
    | .error _ => t
    | .ok u => u

end Sys2Proof.Machine
end

