-- ==== Sys2Proof/Machine/Step.lean ====
section
/-! DEFINITION. The step of the machine: one call of `step()`, exactly one phase (40_fsm.md R101). -/

namespace Sys2Proof.Machine

/-- One call of `step()` (R101). Its returned triple is `stepOutput` of Machine/HostOps.lean. -/
def step (s : State) : Host.Outcome State Fault Refusal := stepPhase s

/-- `s` with the instruction of the `nbits` bits `w` stored where the next FETCH reads, and its FETCH and DECODE phases
done, so that the very next step runs it (log 1). -/
def State.withFetchWord (s : State) (nbits w : Nat) : State :=
  runFrontEnd (placeWords s (BitVec.ofNat 16 (w % 2 ^ nbits)) (BitVec.ofNat 16 (w % 2 ^ nbits / 65536)))

end Sys2Proof.Machine
end

