-- ==== Sys2Proof/Machine/HostOps.lean ====
section
/-! DEFINITION. What the host can do between two steps (00_scope.md R9): reset, load, clear, write a cell, observe; and what
`step()` returns to it. -/

namespace Sys2Proof.Machine

open Sys2Proof

/-- `reset()` (70_reset_and_hazards.md R220): every register, flag, latch and the history takes its reset value; the memory
is not touched (R222). Possible in every state, and the only way out of HALTED and of a fault (R221). -/
def hostReset (s : State) : State :=
  { acc := 0x0000
    pc := 0x0000
    gpr := s.gpr.map fun _ => 0x0000
    flags := { z := false, c := false, v := false, n := false }
    cycles := 0
    halted := false
    phase := .fetch
    ir0 := 0x0000
    ir1 := 0x0000
    irAddr := 0x0000
    dOp := 0
    dMode := .immediate
    dOperand := 0x0000
    fault := .none
    faultInfo := 0
    mem := s.mem
    history := [] }

/-- `HostLoad(words)` (20_memory.md R66): `none` where the load is refused and nothing changes. -/
def hostLoad (words : List Word) (s : State) : Option State :=
  if Config.loadBase + words.length > 65536 then none
  else some (s.withMem ((s.mem.grow (Config.loadBase + words.length)).putWords Config.loadBase words))

/-- `HostClearMemory()` (R67). -/
def hostClearMemory (s : State) : State := s.withMem s.mem.clear

/-- `HostWrite(a, v)` (R68): `none` where the address is not valid and nothing changes
(93_implementation_defined.md U14). -/
def hostWrite (a : Nat) (v : Word) (s : State) : Option State :=
  if a < s.mem.size then some (s.withMem (s.mem.put a v)) else none

/-- What `getState()` returns (10_state.md R38): not the instruction buffer, not the decoded latches. -/
structure Observation where
  acc : Word
  gpr : List Word
  flags : Flags
  pc : Word
  halted : Bool
  cycles : BitVec 32
  ram : Memory
  history : List Snapshot
  phase : Phase
  fault : ErrorCode
  faultInfo : BitVec 17
deriving DecidableEq, Repr

/-- `getState()` (R38); it changes nothing. -/
def getState (s : State) : Observation where
  acc := s.acc
  gpr := s.gpr
  flags := s.flags
  pc := s.pc
  halted := s.halted
  cycles := s.cycles
  ram := s.mem
  history := s.history
  phase := s.phase
  fault := s.fault
  faultInfo := s.faultInfo

/-- The triple `step()` returns (R101). -/
structure StepOutput where
  continues : Bool
  error : ErrorCode
  errorInfo : BitVec 17
deriving DecidableEq, Repr

/-- What the call of `step()` in this state returns (R101, D35); `none` where the model stops (no run reaches such a state). -/
def stepOutput (s : State) : Option StepOutput :=
  if s.fault ≠ .none then some { continues := false, error := s.fault, errorInfo := s.faultInfo }
  else if s.halted = true then some { continues := false, error := .none, errorInfo := 0 }
  else
    match step s with
    | .next t =>
      if t.fault ≠ .none then some { continues := false, error := t.fault, errorInfo := t.faultInfo }
      else some { continues := !t.halted, error := .none, errorInfo := 0 }
    | .fault _ => none
    | .refused _ => none

end Sys2Proof.Machine
end

