-- ==== Sys2Proof/WellFormed.lean ====
section
/-! DEFINITION. Which instructions and triples are valid (30_encoding.md R70, R71). -/

namespace Sys2Proof

/-- An instruction of arity 1 carries the canonical mode of its opcode, the only allowed one (R70, R71). The other
conditions of R70 hold by the types: the opcode is one of the table, the operand fits its field. -/
abbrev Instr.wellFormed (i : Instr) : Prop := i.mode = i.op.canonicalMode

/-- R70: "A triple is valid when its opcode is in the table, its mode is the canonical mode of that opcode, its operand is
in 0 to 0xFFFF, and its operand is 0 if the arity is 0." -/
abbrev Triple.valid (t : Triple) : Prop :=
  ∃ o ∈ Opcode.ofNumber t.op, t.mode = o.canonicalMode ∧ (o.arity = 0 → t.operand = 0)

end Sys2Proof
end

