-- ==== Sys2Proof/Safety.lean ====
section
/-! DEFINITION. What a good state, a completed EXECUTE and the end of a run are, in the terms the statements use. -/

namespace Sys2Proof.Machine

open Sys2Proof

/-- The invariants of 10_state.md R33, (a) to (f), with R23 (the general registers stay at 0x0000, at most 16 of them) and
the canonical form of the memory. -/
structure Inv (s : State) : Prop where
  /-- (a) -/
  halted_iff : s.halted = true ↔ s.phase = .halted
  /-- (b) -/
  fault_phase : s.fault ≠ .none → s.halted = false ∧ s.phase ≠ .halted
  /-- (c), (d): 1 ≤ mem_size ≤ 65536 and the canonical form -/
  mem_wf : s.mem.wf
  /-- (e) -/
  latches : s.phase = .execute → decodeTriple s.ir0 s.ir1 = .ok (latchTriple s)
  /-- (f) -/
  pc_after : s.phase = .decode ∨ s.phase = .execute → s.pc.toNat = (s.irAddr.toNat + wordLength s.ir0) % 65536
  /-- R6, R23 -/
  gpr_count : s.gpr.length ≤ 16
  /-- R23, 93_implementation_defined.md U6 -/
  gpr_zero : ∀ g ∈ s.gpr, g = 0x0000

/-- How many phases of the instruction in flight are completed in a phase. -/
def Phase.completed : Phase → Nat
  | .fetch => 0
  | .decode => 1
  | .execute => 2
  | .halted => 0

/-- The history is the trace of the run since reset: three snapshots an instruction, tagged fetch, decode, execute in turn
(40_fsm.md R107, R110), and `cycles` counts the completed instructions (10_state.md R25). -/
structure TraceInv (s : State) : Prop where
  /-- the phase register tells how many snapshots the instruction in flight has -/
  phase_of_length : s.history.length % 3 = s.phase.completed
  /-- the tags come in turn -/
  tags_in_turn : ∀ k snap, s.history[k]? = some snap → snap.tag = (if k % 3 = 0 then .fetch else if k % 3 = 1 then .decode else .execute)
  /-- modulo 2^32 -/
  cycles_count : s.cycles.toNat = (s.history.length / 3) % 2 ^ 32

/-- A run that ended by HALT, the one successful end (R111). -/
abbrev haltedEnd (s : State) : Prop := s.halted = true ∧ s.phase = .halted ∧ s.fault = .none

/-- A run that ended in a runtime error (R111). -/
abbrev faultedEnd (s : State) : Prop := s.fault ≠ .none ∧ s.halted = false

/-- The machine will perform a phase at the next step: not faulted, not halted (R101). -/
abbrev running (s : State) : Prop := s.fault = .none ∧ s.halted = false

/-- The state after a completed EXECUTE that leaves the accumulator, pc, flags and memory as given (R104, R107): `cycles`
one more, the phase FETCH, one "execute" snapshot showing the new values, and every other element as it was. -/
def afterExecute (s : State) (acc pc : Word) (flags : Flags) (mem : Memory) : State :=
  { s with
    acc := acc
    pc := pc
    flags := flags
    mem := mem
    cycles := s.cycles + 1
    phase := .fetch
    history := s.history ++ [Snapshot.mk .execute acc s.gpr (s.cycles + 1) s.halted flags pc mem s.irAddr] }

/-- The state after a completed FETCH of `len` words (R102): the buffer, `ir_addr`, the advanced `pc` modulo 65536, the phase,
and one "fetch" snapshot showing the advanced `pc` and no other change. -/
def afterFetch (s : State) (w0 w1 : Word) (len : Nat) : State :=
  { s with
    ir0 := w0
    ir1 := w1
    irAddr := s.pc
    pc := s.pc + BitVec.ofNat 16 len
    phase := .decode
    history := s.history ++ [Snapshot.mk .fetch s.acc s.gpr s.cycles s.halted s.flags (s.pc + BitVec.ofNat 16 len) s.mem s.pc] }

/-- The state after a completed DECODE (R103): the three latches, the phase, and one "decode" snapshot. -/
def afterDecode (s : State) (t : Triple) : State :=
  { s with
    dOp := t.op
    dMode := t.mode
    dOperand := t.operand
    phase := .execute
    history := s.history ++ [Snapshot.mk .decode s.acc s.gpr s.cycles s.halted s.flags s.pc s.mem s.irAddr] }

/-- The state after a failing phase (60_exceptions.md R193): the latch holds the error, nothing else changed. -/
def afterError (s : State) (e : ErrorCode) (info : BitVec 17) : State := { s with fault := e, faultInfo := info }

/-- The complete list of the runtime errors (60_exceptions.md R190), each with the information of R196. The opcode numbers
are those of R71: 0x04 to 0x0D are LDA, STA, ADD, SUB, MUL, DIV, CMP, AND, OR, XOR; 0x09 is DIV. -/
def ErrorCause (s : State) (e : ErrorCode) (info : BitVec 17) : Prop :=
  (s.phase = .fetch ∧ e = .addressOutOfRange ∧ s.mem.size ≤ s.pc.toNat ∧ info.toNat = s.pc.toNat) ∨
  (s.phase = .fetch ∧ e = .addressOutOfRange ∧ info.toNat = s.pc.toNat + 1 ∧ s.mem.size ≤ s.pc.toNat + 1 ∧
    ∃ w0, s.mem.cell s.pc.toNat = some w0 ∧ w0.getLsbD 10 = true) ∨
  (s.phase = .decode ∧ e = .decodeError ∧ (∀ t, decodeTriple s.ir0 s.ir1 ≠ .ok t) ∧ info.toNat = s.ir0.toNat) ∨
  (s.phase = .execute ∧ e = .addressOutOfRange ∧ 0x04 ≤ s.dOp.toNat ∧ s.dOp.toNat ≤ 0x0D ∧
    s.mem.size ≤ s.dOperand.toNat ∧ info.toNat = s.dOperand.toNat) ∨
  (s.phase = .execute ∧ e = .arithmeticError ∧ s.dOp = 0x09 ∧ s.mem.cell s.dOperand.toNat = some 0x0000 ∧
    info.toNat = s.irAddr.toNat)

/-! ### The shapes of the instruction statements -/

/-- The encodings of an instruction of arity 1 (30_encoding.md R72, R73): `opc 0 m iiiiiiiii` is its short row with the
operand i, and `opc 1 m 000000000` followed by `w1` its wide row with the operand `w1`. -/
def EncodedAs (opc : BitVec 5) (m : BitVec 1) (mode : Mode) (short : Mode → BitVec 9 → Instr)
    (wide : Mode → Word → Instr) : Prop :=
  (∀ (imm9 : BitVec 9) (w1 : Word), decode (opc ++ (0 : BitVec 1) ++ m ++ imm9) w1 = .ok (short mode imm9)) ∧
  (∀ w1 : Word, decode (opc ++ (1 : BitVec 1) ++ m ++ (0 : BitVec 9)) w1 = .ok (wide mode w1))

/-- The encoding of an instruction of arity 0: of all first words with its opcode, one is legal (R72, R81 (b)). -/
def EncodedAlone (opc : BitVec 5) (word : Word) (i : Instr) : Prop :=
  ∀ w0 w1 : Word, w0.extractLsb' 11 5 = opc → (decode w0 w1).toOption = if w0 = word then some i else none

/-- `P i v` for both rows `i` of an instruction and every operand `v` they can hold: `zext_16(imm9)` in the short row, the
whole second word in the wide row (R75). -/
def BothRows (short : Mode → BitVec 9 → Instr) (wide : Mode → Word → Instr) (mode : Mode)
    (P : Instr → Word → Prop) : Prop :=
  (∀ imm9 : BitVec 9, P (short mode imm9) (imm9.setWidth 16)) ∧ (∀ imm16 : Word, P (wide mode imm16) imm16)

/-- An instruction that computes with the memory word at its operand address: with the word `b` there, EXECUTE completes in
the state `after s b`; with no cell there, it raises AddressOutOfRange with that address and writes nothing. -/
def OnMemoryWord (short : Mode → BitVec 9 → Instr) (wide : Mode → Word → Instr) (after : State → Word → State) : Prop :=
  BothRows short wide .direct fun i a => ∀ s : State,
    (∀ b, s.mem.cell a.toNat = some b → exec i s = .next (after s b)) ∧
    (s.mem.size ≤ a.toNat → exec i s = .next (afterError s .addressOutOfRange (a.setWidth 17)))

/-- A jump (45_control.md R170 to R179): EXECUTE completes; the pc is the operand when the condition holds of the flags and
stays otherwise; nothing else of the frame's five elements changes. -/
def JumpsWhen (opc : BitVec 5) (short : Mode → BitVec 9 → Instr) (wide : Mode → Word → Instr)
    (taken : Flags → Bool) : Prop :=
  EncodedAs opc 0 .immediate short wide ∧
  BothRows short wide .immediate fun i t => ∀ s : State,
    exec i s = .next (afterExecute s s.acc (if taken s.flags then t else s.pc) s.flags s.mem)

/-- The four flags of a difference (41_flag_unit_alu.md R121, R122, R124, R126): shared by SUB and CMP. -/
def differenceFlags (a b : Word) : Flags where
  z := decide (a - b = 0)
  c := decide (a.toNat < b.toNat)
  v := decide (a.toInt - b.toInt < -32768 ∨ 32767 < a.toInt - b.toInt)
  n := (a - b).msb

end Sys2Proof.Machine
end

