-- ==== Sys2Proof/Certificates/Slice0/Obligations.lean ====
section
/-! DEFINITION. The statements for the provers. Each docstring names the rule of spec/ it formalises. -/

open Sys2Proof Sys2Proof.Machine

/-! ## Encoding -/

/-- 30_encoding.md R83, over the rows: decoding the encoding of a well-formed row gives it back, whatever word follows a
short one, and bit 10 of the first word tells the length. -/
def Obligations.DecodeOfEncodeIsTheRow : Prop :=
  ∀ i : Instr, i.wellFormed →
    (∃ w0, encode i = [w0] ∧ w0.getLsbD 10 = false ∧ ∀ w1, decode w0 w1 = .ok i) ∨
    (∃ w0 w1, encode i = [w0, w1] ∧ w0.getLsbD 10 = true ∧ decode w0 w1 = .ok i)

/-- 30_encoding.md R83: the round-trip law for every valid triple and both values of `force_wide`; the converse; and
`Decode` is injective on legal words of equal length. -/
def Obligations.RoundTripLaw : Prop :=
  (∀ (t : Triple) (forceWide : Bool), t.valid →
    (∃ w0, encodeOp t.op (t.operand.toNat : Int) forceWide = .ok [w0] ∧ ∀ w1, decodeTriple w0 w1 = .ok t) ∨
    (∃ w0 w1, encodeOp t.op (t.operand.toNat : Int) forceWide = .ok [w0, w1] ∧ decodeTriple w0 w1 = .ok t)) ∧
  (∀ (w0 w1 : Word) (t : Triple), decodeTriple w0 w1 = .ok t →
    t.valid ∧
    encodeOp t.op (t.operand.toNat : Int) (w0.getLsbD 10) = .ok (if w0.getLsbD 10 then [w0, w1] else [w0])) ∧
  (∀ (w0 w1 v0 v1 : Word) (t : Triple), decodeTriple w0 w1 = .ok t → decodeTriple v0 v1 = .ok t →
    w0.getLsbD 10 = v0.getLsbD 10 → w0 = v0 ∧ (w0.getLsbD 10 = true → w1 = v1))

/-- 30_encoding.md R81: the first words that DECODE refuses are exactly those of (a), (b), (c), (d); 0x0000 and 0xFFFF are
among them. -/
def Obligations.IllegalWordsAreExactlyThese : Prop :=
  (∀ w0 w1 : Word,
    (∀ i, decode w0 w1 ≠ .ok i) ↔
      (w0.extractLsb' 11 5 ∈ ([0x00, 0x0F, 0x11, 0x1A, 0x1B, 0x1C, 0x1D, 0x1E, 0x1F] : List (BitVec 5))) ∨
      (w0.extractLsb' 11 5 ∈ ([0x01, 0x02, 0x0E] : List (BitVec 5)) ∧ w0.extractLsb' 0 11 ≠ 0) ∨
      (w0.extractLsb' 11 5 ∈ ([0x03, 0x10, 0x12, 0x13, 0x14, 0x15, 0x16, 0x17, 0x18, 0x19] : List (BitVec 5)) ∧
        w0.getLsbD 9 = true) ∨
      (w0.extractLsb' 11 5 ∈ ([0x04, 0x05, 0x06, 0x07, 0x08, 0x09, 0x0A, 0x0B, 0x0C, 0x0D] : List (BitVec 5)) ∧
        w0.getLsbD 9 = false) ∨
      (w0.getLsbD 10 = true ∧ w0.extractLsb' 0 9 ≠ 0)) ∧
  (∀ (w1 : Word) (i : Instr), decode 0x0000 w1 ≠ .ok i ∧ decode 0xFFFF w1 ≠ .ok i)

/-- 30_encoding.md R77, R79: the encoder fails with InvalidInstruction exactly on an opcode number outside the table, and
with EncodingOverflow exactly on an operand of arity 1 that is negative or above 0xFFFF. -/
def Obligations.EncoderErrorsAreExactlyThese : Prop :=
  ∀ (op : BitVec 5) (v : Int) (forceWide : Bool),
    (encodeOp op v forceWide = .error .invalidInstruction ↔
      op ∈ ([0x00, 0x0F, 0x11, 0x1A, 0x1B, 0x1C, 0x1D, 0x1E, 0x1F] : List (BitVec 5))) ∧
    (encodeOp op v forceWide = .error .encodingOverflow ↔
      op ∉ ([0x00, 0x0F, 0x11, 0x1A, 0x1B, 0x1C, 0x1D, 0x1E, 0x1F, 0x01, 0x02, 0x0E] : List (BitVec 5)) ∧
        (v < 0 ∨ 0xFFFF < v))

/-- 30_encoding.md R82: an operand that fits the short format has a short encoding and, with `force_wide` only, a wide one;
both decode to the same triple. -/
def Obligations.WideEncodingOfSmallOperandIsTheSameTriple : Prop :=
  ∀ (op : BitVec 5) (v : Nat), v ≤ 0x1FF →
    op ∉ ([0x00, 0x0F, 0x11, 0x1A, 0x1B, 0x1C, 0x1D, 0x1E, 0x1F, 0x01, 0x02, 0x0E] : List (BitVec 5)) →
    ∃ w0 v0 v1 t, encodeOp op (v : Int) false = .ok [w0] ∧ encodeOp op (v : Int) true = .ok [v0, v1] ∧
      (∀ w1, decodeTriple w0 w1 = .ok t) ∧ decodeTriple v0 v1 = .ok t

/-- 30_encoding.md section 6: words written out bit by bit from R71 to R73 decode to the instructions they stand for, one
at least in every family. -/
def Obligations.SpelledOutWordsDecode : Prop :=
  decode 0b0000100000000000 0 = .ok .nop ∧
  decode 0b0001000000000000 0 = .ok .halt ∧
  decode 0b0001100000000101 0 = .ok (.ldiS .immediate 5) ∧
  decode 0b0010011000000000 0x0200 = .ok (.ldaW .direct 0x0200) ∧
  decode 0b0010111000000000 0x0200 = .ok (.staW .direct 0x0200) ∧
  decode 0b0011001111111111 0 = .ok (.addS .direct 0x1FF) ∧
  decode 0b0101011000000000 0x8000 = .ok (.cmpW .direct 0x8000) ∧
  decode 0b0110101100000000 0 = .ok (.xorS .direct 0x100) ∧
  decode 0b0111000000000000 0 = .ok .not ∧
  decode 0b1001110000000000 0xFFFF = .ok (.jnzW .immediate 0xFFFF) ∧
  decode 0b1100100001000000 0 = .ok (.jnnS .immediate 0x40)

/-! ## The instructions -/

/-- 42_load_store.md R140. -/
def Obligations.LdiLoadsTheLiteral : Prop :=
  EncodedAs 0b00011 0 .immediate .ldiS .ldiW ∧
  BothRows .ldiS .ldiW .immediate fun i v => ∀ s : State,
    exec i s = .next (afterExecute s v s.pc s.flags s.mem)

/-- 42_load_store.md R141. -/
def Obligations.LdaLoadsTheCell : Prop :=
  EncodedAs 0b00100 1 .direct .ldaS .ldaW ∧
  OnMemoryWord .ldaS .ldaW fun s b => afterExecute s b s.pc s.flags s.mem

/-- 42_load_store.md R142: the word at the operand address is the accumulator, every other cell and the bound are as
before; beyond the bound nothing is written. -/
def Obligations.StaStoresTheAccumulator : Prop :=
  EncodedAs 0b00101 1 .direct .staS .staW ∧
  BothRows .staS .staW .direct fun i a => ∀ s : State,
    (a.toNat < s.mem.size → ∃ m : Memory,
      exec i s = .next (afterExecute s s.acc s.pc s.flags m) ∧ m.size = s.mem.size ∧
      m.cell a.toNat = some s.acc ∧ ∀ b : Nat, b ≠ a.toNat → m.cell b = s.mem.cell b) ∧
    (s.mem.size ≤ a.toNat → exec i s = .next (afterError s .addressOutOfRange (a.setWidth 17)))

/-- 43_arithmetic.md R150. -/
def Obligations.AddSumsAndSetsFlags : Prop :=
  EncodedAs 0b00110 1 .direct .addS .addW ∧
  OnMemoryWord .addS .addW fun s b =>
    afterExecute s (s.acc + b) s.pc
      { z := decide (s.acc + b = 0)
        c := decide (65536 ≤ s.acc.toNat + b.toNat)
        v := decide (s.acc.toInt + b.toInt < -32768 ∨ 32767 < s.acc.toInt + b.toInt)
        n := (s.acc + b).msb } s.mem

/-- 43_arithmetic.md R151. -/
def Obligations.SubSubtractsAndSetsFlags : Prop :=
  EncodedAs 0b00111 1 .direct .subS .subW ∧
  OnMemoryWord .subS .subW fun s b => afterExecute s (s.acc - b) s.pc (differenceFlags s.acc b) s.mem

/-- 43_arithmetic.md R152. -/
def Obligations.MulMultipliesAndSetsFlags : Prop :=
  EncodedAs 0b01000 1 .direct .mulS .mulW ∧
  OnMemoryWord .mulS .mulW fun s b =>
    afterExecute s (s.acc * b) s.pc
      { z := decide (s.acc * b = 0)
        c := decide (0xFFFF < s.acc.toNat * b.toNat)
        v := decide (s.acc.toInt * b.toInt < -32768 ∨ 32767 < s.acc.toInt * b.toInt)
        n := (s.acc * b).msb } s.mem

/-- 43_arithmetic.md R153: the unsigned quotient with C and V cleared; a zero divisor raises ArithmeticError with the
address of the instruction, and nothing else is written. -/
def Obligations.DivDividesOrRaises : Prop :=
  EncodedAs 0b01001 1 .direct .divS .divW ∧
  OnMemoryWord .divS .divW fun s b =>
    if b = 0 then afterError s .arithmeticError (s.irAddr.setWidth 17)
    else
      afterExecute s (BitVec.ofNat 16 (s.acc.toNat / b.toNat)) s.pc
        { z := decide (s.acc.toNat / b.toNat = 0)
          c := false
          v := false
          n := (BitVec.ofNat 16 (s.acc.toNat / b.toNat)).msb } s.mem

/-- 43_arithmetic.md R154: the flags of SUB, the accumulator kept; and what the flags then say of the operands. -/
def Obligations.CmpSetsTheFlagsOfSub : Prop :=
  EncodedAs 0b01010 1 .direct .cmpS .cmpW ∧
  (OnMemoryWord .cmpS .cmpW fun s b => afterExecute s s.acc s.pc (differenceFlags s.acc b) s.mem) ∧
  ∀ a b : Word,
    ((differenceFlags a b).z = true ↔ a = b) ∧
    ((differenceFlags a b).c = true ↔ a.toNat < b.toNat) ∧
    ((differenceFlags a b).n ≠ (differenceFlags a b).v ↔ a.toInt < b.toInt)

/-- 44_logic.md R161, R162, R163. -/
def Obligations.LogicWritesZAndNOnly : Prop :=
  (EncodedAs 0b01011 1 .direct .andS .andW ∧
    OnMemoryWord .andS .andW fun s b =>
      afterExecute s (s.acc &&& b) s.pc
        { s.flags with z := decide (s.acc &&& b = 0), n := (s.acc &&& b).msb } s.mem) ∧
  (EncodedAs 0b01100 1 .direct .orS .orW ∧
    OnMemoryWord .orS .orW fun s b =>
      afterExecute s (s.acc ||| b) s.pc
        { s.flags with z := decide (s.acc ||| b = 0), n := (s.acc ||| b).msb } s.mem) ∧
  (EncodedAs 0b01101 1 .direct .xorS .xorW ∧
    OnMemoryWord .xorS .xorW fun s b =>
      afterExecute s (s.acc ^^^ b) s.pc
        { s.flags with z := decide (s.acc ^^^ b = 0), n := (s.acc ^^^ b).msb } s.mem)

/-- 44_logic.md R160, with its corner case that NOT twice restores the accumulator. -/
def Obligations.NotComplementsTheAccumulator : Prop :=
  EncodedAlone 0b01110 0x7000 .not ∧
  (∀ s : State, exec .not s = .next
    (afterExecute s (~~~s.acc) s.pc { s.flags with z := decide (s.acc = 0xFFFF), n := !s.acc.msb } s.mem)) ∧
  (∀ s t u : State, exec .not s = .next t → exec .not t = .next u → u.acc = s.acc)

/-- 45_control.md R170 to R179: the condition table. -/
def Obligations.JumpsFollowTheConditionTable : Prop :=
  JumpsWhen 0b10000 .jmpS .jmpW (fun _ => true) ∧
  JumpsWhen 0b10010 .jzS .jzW (fun f => f.z) ∧
  JumpsWhen 0b10011 .jnzS .jnzW (fun f => !f.z) ∧
  JumpsWhen 0b10100 .jcS .jcW (fun f => f.c) ∧
  JumpsWhen 0b10101 .jncS .jncW (fun f => !f.c) ∧
  JumpsWhen 0b10110 .jvS .jvW (fun f => f.v) ∧
  JumpsWhen 0b10111 .jnvS .jnvW (fun f => !f.v) ∧
  JumpsWhen 0b11000 .jnS .jnW (fun f => f.n) ∧
  JumpsWhen 0b11001 .jnnS .jnnW (fun f => !f.n)

/-- 46_system.md R185: `halted` and the phase HALTED, `cycles` one more, one snapshot, the pc and everything else kept; the
step that executes it returns "cannot continue"; later steps move nothing, and reset leaves the HALTED state. -/
def Obligations.HaltStopsTheMachine : Prop :=
  EncodedAlone 0b00010 0x1000 .halt ∧
  (∀ s : State, exec .halt s = .next
    { s with
      halted := true
      phase := .halted
      cycles := s.cycles + 1
      history := s.history ++ [Snapshot.mk .execute s.acc s.gpr (s.cycles + 1) true s.flags s.pc s.mem s.irAddr] }) ∧
  (∀ s : State, running s → s.phase = .execute → latchTriple s = Instr.halt.triple →
    step s = exec .halt s ∧ stepOutput s = some { continues := false, error := .none, errorInfo := 0 }) ∧
  (∀ s t : State, exec .halt s = .next t → step t = .next t ∧ (hostReset t).halted = false ∧ (hostReset t).phase = .fetch)

/-- 46_system.md R186: the bookkeeping of EXECUTE and nothing else; the all-zero word is not NOP. -/
def Obligations.NopHasNoEffectOfItsOwn : Prop :=
  EncodedAlone 0b00001 0x0800 .nop ∧
  (∀ w1 : Word, decode 0x0000 w1 ≠ .ok .nop) ∧
  ∀ s : State, exec .nop s = .next (afterExecute s s.acc s.pc s.flags s.mem)

/-- 10_state.md R34: the frame of EXECUTE, for every instruction row. What only some instructions write, the others leave;
what no instruction writes, all leave; STA changes the cell its operand names and no other. -/
def Obligations.ExecuteWritesOnlyItsPorts : Prop :=
  ∀ (i : Instr) (s t : State), exec i s = .next t →
    (i.op ∉ ([.ldi, .lda, .add, .sub, .mul, .div, .and, .or, .xor, .not] : List Opcode) → t.acc = s.acc) ∧
    (i.op ∉ ([.jmp, .jz, .jnz, .jc, .jnc, .jv, .jnv, .jn, .jnn] : List Opcode) → t.pc = s.pc) ∧
    (i.op ∉ ([.add, .sub, .mul, .div, .cmp] : List Opcode) → t.flags.c = s.flags.c ∧ t.flags.v = s.flags.v) ∧
    (i.op ∉ ([.add, .sub, .mul, .div, .cmp, .and, .or, .xor, .not] : List Opcode) → t.flags = s.flags) ∧
    (i.op ≠ .halt → t.halted = s.halted) ∧
    t.gpr = s.gpr ∧ t.ir0 = s.ir0 ∧ t.ir1 = s.ir1 ∧ t.irAddr = s.irAddr ∧
    t.dOp = s.dOp ∧ t.dMode = s.dMode ∧ t.dOperand = s.dOperand ∧
    t.mem.size = s.mem.size ∧
    (i.op ≠ .sta → ∀ a : Nat, t.mem.cell a = s.mem.cell a) ∧
    (i.op = .sta → ∀ a : Nat, a ≠ i.operand.toNat → t.mem.cell a = s.mem.cell a)

/-! ## The flag unit and the ALU -/

/-- 41_flag_unit_alu.md R125, R126: V is the overflow of the signed result, and the equivalent bit forms. -/
def Obligations.OverflowIsSignedOverflowAndItsBitForm : Prop :=
  ∀ a b : Word,
    ((flagUnit .add a b (a + b)).v = true ↔ a.toInt + b.toInt < -32768 ∨ 32767 < a.toInt + b.toInt) ∧
    ((flagUnit .add a b (a + b)).v = true ↔ a.msb = b.msb ∧ (a + b).msb ≠ a.msb) ∧
    ((flagUnit .sub a b (a - b)).v = true ↔ a.toInt - b.toInt < -32768 ∨ 32767 < a.toInt - b.toInt) ∧
    ((flagUnit .sub a b (a - b)).v = true ↔ a.msb ≠ b.msb ∧ (a - b).msb ≠ a.msb)

/-- 41_flag_unit_alu.md R132 (a), (b), (c): the result words of ADD, SUB and MUL are those of the signed reading too, and an
unsigned quotient never exceeds its dividend. -/
def Obligations.ResultsAgreeUnderBothReadings : Prop :=
  ∀ a b : Word,
    aluResult .add a b = some (BitVec.ofInt 16 (a.toInt + b.toInt)) ∧
    aluResult .sub a b = some (BitVec.ofInt 16 (a.toInt - b.toInt)) ∧
    aluResult .mul a b = some (BitVec.ofInt 16 (a.toInt * b.toInt)) ∧
    (∀ r, aluResult .div a b = some r → r.toNat = a.toNat / b.toNat ∧ r.toNat ≤ a.toNat)

/-! ## The phase machine -/

/-- A step runs the decoded instruction (40_fsm.md R102 to R104, R110): from FETCH, when the words at `pc` decode to a
(well-formed) instruction, three steps fetch it, decode it and execute it, with `pc` at `ir_addr` + length after the first. -/
def Obligations.ThreeStepsRunTheDecodedInstruction : Prop :=
  ∀ (s : State) (w0 w1 : Word) (i : Instr), running s → s.phase = .fetch →
    s.mem.cell s.pc.toNat = some w0 →
    (w0.getLsbD 10 = true → s.mem.cell (s.pc.toNat + 1) = some w1) → (w0.getLsbD 10 = false → w1 = 0) →
    decode w0 w1 = .ok i →
    i.wellFormed ∧
    step s = .next (afterFetch s w0 w1 (if w0.getLsbD 10 then 2 else 1)) ∧
    step (afterFetch s w0 w1 (if w0.getLsbD 10 then 2 else 1)) =
      .next (afterDecode (afterFetch s w0 w1 (if w0.getLsbD 10 then 2 else 1)) i.triple) ∧
    step (afterDecode (afterFetch s w0 w1 (if w0.getLsbD 10 then 2 else 1)) i.triple) =
      exec i (afterDecode (afterFetch s w0 w1 (if w0.getLsbD 10 then 2 else 1)) i.triple)

/-- 40_fsm.md R104, 70_reset_and_hazards.md R232: in EXECUTE the step is the instruction in the latches, whatever the memory
now holds. -/
def Obligations.InstructionInFlightIsACopy : Prop :=
  ∀ (s : State) (m : Memory) (i : Instr), running s →
    (s.phase = .decode → ∀ t, step s = .next t → ∃ u, step (s.withMem m) = .next u ∧
      u.dOp = t.dOp ∧ u.dMode = t.dMode ∧ u.dOperand = t.dOperand ∧ u.phase = t.phase ∧
      u.fault = t.fault ∧ u.faultInfo = t.faultInfo) ∧
    (s.phase = .execute → decode s.ir0 s.ir1 = .ok i → latchTriple s = i.triple →
      step s = exec i s ∧ step (s.withMem m) = exec i (s.withMem m))

/-- 40_fsm.md R102. -/
def Obligations.FetchReadsWordsAndAdvancesPc : Prop :=
  ∀ s : State, running s → s.phase = .fetch →
    (s.mem.size ≤ s.pc.toNat → step s = .next (afterError s .addressOutOfRange (s.pc.setWidth 17))) ∧
    (∀ w0, s.mem.cell s.pc.toNat = some w0 → w0.getLsbD 10 = false → step s = .next (afterFetch s w0 0 1)) ∧
    (∀ w0, s.mem.cell s.pc.toNat = some w0 → w0.getLsbD 10 = true →
      (s.mem.size ≤ s.pc.toNat + 1 → step s = .next (afterError s .addressOutOfRange (s.pc.setWidth 17 + 1))) ∧
      (∀ w1, s.mem.cell (s.pc.toNat + 1) = some w1 → step s = .next (afterFetch s w0 w1 2)) ∧
      (s.pc = 0xFFFF → s.mem.size ≤ 65536 → step s = .next (afterError s .addressOutOfRange 0x10000)))

/-- 40_fsm.md R103. -/
def Obligations.DecodeWritesTheLatches : Prop :=
  ∀ s : State, running s → s.phase = .decode →
    (∀ t, decodeTriple s.ir0 s.ir1 = .ok t → step s = .next (afterDecode s t)) ∧
    ((∀ t, decodeTriple s.ir0 s.ir1 ≠ .ok t) → step s = .next (afterError s .decodeError (s.ir0.setWidth 17)))

/-- 40_fsm.md R100: the transition table. -/
def Obligations.PhaseTransitionsFollowTheTable : Prop :=
  ∀ s t : State, step s = .next t →
    (running s → t.fault = .none →
      (s.phase = .fetch → t.phase = .decode) ∧
      (s.phase = .decode → t.phase = .execute) ∧
      (s.phase = .execute → s.dOp ≠ 0x02 → t.phase = .fetch) ∧
      (s.phase = .execute → s.dOp = 0x02 → t.phase = .halted)) ∧
    (t.fault ≠ .none → t.phase = s.phase) ∧
    (s.phase = .halted → t.phase = .halted) ∧
    (¬ running s → t.phase = s.phase) ∧
    (hostReset s).phase = .fetch ∧ (hostClearMemory s).phase = s.phase ∧
    (∀ words u, hostLoad words s = some u → u.phase = s.phase) ∧
    (∀ a v u, hostWrite a v s = some u → u.phase = s.phase)

/-- 40_fsm.md R108. -/
def Obligations.StepOnceHaltedIsANoOp : Prop :=
  ∀ s : State, s.halted = true → s.fault = .none →
    step s = .next s ∧ stepOutput s = some { continues := false, error := .none, errorInfo := 0 }

/-- 40_fsm.md R109: also after the host has changed the memory; only `reset()` clears the latch. -/
def Obligations.StepOnceFaultedIsANoOp : Prop :=
  ∀ s : State, s.fault ≠ .none →
    (∀ m : Memory, step (s.withMem m) = .next (s.withMem m)) ∧ step s = .next s ∧
    stepOutput s = some { continues := false, error := s.fault, errorInfo := s.faultInfo } ∧
    (hostReset s).fault = .none ∧
    (∀ words t, hostLoad words s = some t → t.fault = s.fault) ∧
    (∀ a v t, hostWrite a v s = some t → t.fault = s.fault) ∧ (hostClearMemory s).fault = s.fault

/-- 40_fsm.md R101: what `step()` returns. -/
def Obligations.StepReturnsContinuesAndError : Prop :=
  ∀ s t : State, step s = .next t →
    ∃ o, stepOutput s = some o ∧ o.error = t.fault ∧
      o.errorInfo = (if t.fault = .none then 0 else t.faultInfo) ∧
      (o.continues = true ↔ t.fault = .none ∧ t.halted = false)

/-- 60_exceptions.md R193: error entry. -/
def Obligations.FailingPhaseWritesTheLatchOnly : Prop :=
  ∀ s t : State, running s → step s = .next t → t.fault ≠ .none →
    t = afterError s t.fault t.faultInfo ∧ t.halted = false ∧
    stepOutput s = some { continues := false, error := t.fault, errorInfo := t.faultInfo } ∧
    step t = .next t

/-- 60_exceptions.md R190, R196: the complete list of the places where each error can be raised, with what it records. -/
def Obligations.RuntimeErrorsAreExactlyThese : Prop :=
  ∀ (s : State) (e : ErrorCode) (info : BitVec 17), Inv s → running s → e ≠ .none →
    (step s = .next (afterError s e info) ↔ ErrorCause s e info)

/-- 40_fsm.md R107, 10_state.md R32: a completed phase appends one snapshot of the state it leaves, with its tag; any other
step appends none. -/
def Obligations.EveryCompletedPhaseAppendsOneSnapshot : Prop :=
  ∀ s t : State, step s = .next t →
    (running s → t.fault = .none → ∀ tag : Tag,
      (s.phase = .fetch ∧ tag = .fetch) ∨ (s.phase = .decode ∧ tag = .decode) ∨ (s.phase = .execute ∧ tag = .execute) →
      t.history = s.history ++ [Snapshot.mk tag t.acc t.gpr t.cycles t.halted t.flags t.pc t.mem t.irAddr]) ∧
    (¬ running s ∨ t.fault ≠ .none → t.history = s.history)

/-- 10_state.md R32: "No rule of the core reads the history": with another history before it, a step does the same to
everything else and appends the same. -/
def Obligations.HistoryIsNeverRead : Prop :=
  ∀ (s t : State) (h : List Snapshot), step s = .next t →
    ∃ added, t.history = s.history ++ added ∧
      step { s with history := h } = .next { t with history := h ++ added }

/-- 10_state.md R25: the cycle counter. -/
def Obligations.CyclesCountCompletedExecutes : Prop :=
  ∀ s t : State, step s = .next t →
    (running s ∧ s.phase = .execute ∧ t.fault = .none → t.cycles = s.cycles + 1) ∧
    (¬ (running s ∧ s.phase = .execute ∧ t.fault = .none) → t.cycles = s.cycles) ∧
    (hostReset s).cycles = 0 ∧ (hostClearMemory s).cycles = s.cycles ∧
    (∀ words u, hostLoad words s = some u → u.cycles = s.cycles) ∧
    (∀ a v u, hostWrite a v s = some u → u.cycles = s.cycles)

/-- 10_state.md R26: the halted flag. -/
def Obligations.HaltedIsSetByHaltAndClearedByReset : Prop :=
  ∀ s t : State, step s = .next t →
    (t.halted = true ↔ s.halted = true ∨ (running s ∧ s.phase = .execute ∧ s.dOp = 0x02)) ∧
    (s.halted = true → t = s) ∧ (t.fault ≠ .none → t.halted = s.halted) ∧
    (hostReset s).halted = false ∧ (hostClearMemory s).halted = s.halted ∧
    (∀ words u, hostLoad words s = some u → u.halted = s.halted) ∧
    (∀ a v u, hostWrite a v s = some u → u.halted = s.halted)

/-- 10_state.md R23: no step and no host operation but reset writes a general register; reset clears them all. -/
def Obligations.GeneralRegistersAreWrittenByResetOnly : Prop :=
  ∀ s t : State,
    (step s = .next t → t.gpr = s.gpr) ∧
    (∀ words, hostLoad words s = some t → t.gpr = s.gpr) ∧
    (∀ a v, hostWrite a v s = some t → t.gpr = s.gpr) ∧
    (hostClearMemory s).gpr = s.gpr ∧
    (hostReset s).gpr = List.replicate s.gpr.length 0x0000

/-- 20_memory.md R63: a store is seen by the very next FETCH of its address. -/
def Obligations.StoreIsSeenByTheNextFetch : Prop :=
  ∀ (i : Instr) (s t u : State), i.op = .sta → running s → i.operand = s.pc →
    exec i s = .next t → t.fault = .none → step t = .next u → u.fault = .none →
    u.ir0 = s.acc ∧ u.irAddr = s.pc

/-- 40_fsm.md R111: under the invariants, `step()` answers "cannot continue" exactly when the run has ended, and it has ended
in exactly one of the two ways. -/
def Obligations.RunsEndHaltedOrFaulted : Prop :=
  ∀ (s t : State) (o : StepOutput), Inv s → step s = .next t → stepOutput s = some o →
    (o.continues = false ↔ haltedEnd t ∨ faultedEnd t) ∧ ¬ (haltedEnd t ∧ faultedEnd t)

/-! ## Memory and the host's operations -/

/-- 20_memory.md R53: a write changes the one cell it names, and beyond the bound nothing. -/
def Obligations.MemWriteChangesOneCell : Prop :=
  ∀ (s : State) (a v : Word),
    (s.mem.size ≤ a.toNat → memWrite s a v = .error { code := .addressOutOfRange, info := a.setWidth 17 }) ∧
    (a.toNat < s.mem.size → ∃ m, memWrite s a v = .ok m ∧ m.size = s.mem.size ∧ m.cell a.toNat = some v ∧
      ∀ b : Nat, b ≠ a.toNat → m.cell b = s.mem.cell b)

/-- 20_memory.md R66, R54: the load writes the words from address 0, grows the memory to hold them, never shrinks it, leaves
every other cell and everything else; a program that does not fit below 65536 is refused. That a refused load answers `none` is the
model's form of the refusal (log 14). -/
def Obligations.HostLoadInstallsTheWords : Prop :=
  ∀ (words : List Word) (s : State),
    (65536 < words.length → hostLoad words s = none) ∧
    (words.length ≤ 65536 → ∃ m, hostLoad words s = some { s with mem := m } ∧
      m.size = max s.mem.size words.length ∧
      (∀ k w, words[k]? = some w → m.cell k = some w) ∧
      (∀ a : Nat, words.length ≤ a → m.cell a = s.mem.cell a))

/-- 20_memory.md R67, R68: clearing zeroes every cell and keeps the bound; a host write changes one valid cell and is refused
elsewhere (U14); `reset()` clears no cell. That a refused write answers `none` is the model's form of the refusal (log 14). -/
def Obligations.HostClearAndHostWriteChangeMemoryOnly : Prop :=
  ∀ s : State,
    (∃ m, hostClearMemory s = { s with mem := m } ∧ m.size = s.mem.size ∧
      ∀ a : Nat, a < s.mem.size → m.cell a = some 0x0000) ∧
    (hostReset s).mem = s.mem ∧
    (∀ (a : Nat) (v : Word), s.mem.size ≤ a → hostWrite a v s = none) ∧
    (∀ (a : Nat) (v : Word), a < s.mem.size → ∃ m, hostWrite a v s = some { s with mem := m } ∧
      m.size = s.mem.size ∧ m.cell a = some v ∧ ∀ b : Nat, b ≠ a → m.cell b = s.mem.cell b)

/-- 70_reset_and_hazards.md R220: from every state, reset gives every register, latch and the history its reset value, which
is the one in a new machine with as many general registers, and keeps the memory (R222). -/
def Obligations.ResetIsANewMachineWithTheOldMemory : Prop :=
  ∀ (s : State) (memWords : Nat),
    hostReset s = { State.create { memWords := memWords, ngpr := s.gpr.length } with mem := s.mem } ∧
    hostReset s =
      { acc := 0x0000, pc := 0x0000, gpr := List.replicate s.gpr.length 0x0000
        flags := { z := false, c := false, v := false, n := false }
        cycles := 0, halted := false, phase := .fetch, ir0 := 0x0000, ir1 := 0x0000, irAddr := 0x0000
        dOp := 0, dMode := .immediate, dOperand := 0x0000, fault := .none, faultInfo := 0, mem := s.mem, history := [] }

/-- 10_state.md R37, 20_memory.md R65: a new machine, for every value of the two OPEN parameters. The values 4096 and 8 of
`State.reset` are the model's choice (logs 2 and 3). -/
def Obligations.NewMachineHoldsTheResetValues : Prop :=
  (∀ p : Config.Params,
    let s := State.create p
    s.acc = 0 ∧ s.pc = 0 ∧ s.gpr.length = p.ngpr ∧ (∀ g ∈ s.gpr, g = 0) ∧
    s.flags.z = false ∧ s.flags.c = false ∧ s.flags.v = false ∧ s.flags.n = false ∧
    s.cycles = 0 ∧ s.halted = false ∧ s.phase = .fetch ∧ s.ir0 = 0 ∧ s.ir1 = 0 ∧ s.irAddr = 0 ∧
    s.dOp = 0 ∧ s.dMode = .immediate ∧ s.dOperand = 0 ∧ s.fault = .none ∧ s.faultInfo = 0 ∧ s.history = [] ∧
    s.mem.size = p.memWords ∧ ∀ a : Nat, a < p.memWords → s.mem.cell a = some 0x0000) ∧
  State.reset = State.create { memWords := 4096, ngpr := 8 }

/-- The model's own placement of an instruction for the next step (log 1), not a rule of the spec: the next step runs exactly
the instruction the decoder reads from the word. -/
def Obligations.PlacedWordRunsAtTheNextStep : Prop :=
  ∀ (s : State) (nbits w : Nat) (i : Instr), s.pc.toNat + 1 < 65536 → decodeTableWord nbits w = some i →
    step (s.withFetchWord nbits w) = exec i (s.withFetchWord nbits w) ∧
    (s.withFetchWord nbits w).acc = s.acc ∧ (s.withFetchWord nbits w).flags = s.flags ∧
    (s.withFetchWord nbits w).gpr = s.gpr ∧ (s.withFetchWord nbits w).irAddr = s.pc

/-! ## Invariants -/

/-- 10_state.md R33: the invariants hold of every new machine with valid parameters, and of the state after reset. -/
def Obligations.InvariantsHoldOfANewMachine : Prop :=
  (∀ p : Config.Params, p.valid → Inv (State.create p) ∧ TraceInv (State.create p)) ∧
  Inv State.reset ∧ TraceInv State.reset

/-- 10_state.md R33: every step keeps the invariants, from every state that has them. -/
def Obligations.EveryStepKeepsTheInvariants : Prop :=
  ∀ s t : State, Inv s → step s = .next t → Inv t

/-- 40_fsm.md R107, R110, 10_state.md R25: every step keeps the trace invariant: three snapshots an instruction, tagged fetch,
decode, execute in turn, and `cycles` the number of completed instructions modulo 2^32. -/
def Obligations.EveryStepKeepsTheTrace : Prop :=
  ∀ s t : State, TraceInv s → step s = .next t → TraceInv t

/-- 10_state.md R33: the host's operations keep the invariants. -/
def Obligations.HostOperationsKeepTheInvariants : Prop :=
  ∀ s t : State, Inv s →
    Inv (hostReset s) ∧ TraceInv (hostReset s) ∧ Inv (hostClearMemory s) ∧
    (∀ words, hostLoad words s = some t → Inv t) ∧ (∀ a v, hostWrite a v s = some t → Inv t)

/-- 40_fsm.md R104, R111: from a state with the invariants the machine never stops outside the spec's own runtime errors: a
run of any length answers a next state, which has the invariants and whose memory is as large as before. -/
def Obligations.RunsOfAnyLengthAnswerANextState : Prop :=
  ∀ (n : Nat) (s : State), Inv s →
    ∃ t, Host.Core.run Sys2Proof.core n s = .next t ∧ Inv t ∧ t.mem.size = s.mem.size ∧ t.gpr = s.gpr
end

