-- ==== Sys2Proof/Laws/Memory.lean ====
section
/-! SUPPORT. The laws of memory: read after write, every other cell left alone, and the canonical form kept by every
memory operation. -/

namespace Sys2Proof.Machine

open Sys2Proof

/-! ### Reading after a write -/

theorem cellsRead_erase_same (a : Nat) (l : List (Nat × Word)) : cellsRead a (cellsErase a l) = unlistedWord := by
  induction l with
  | nil => rfl
  | cons p rest ih =>
    by_cases h : p.1 = a
    · simp [cellsErase, h, ih]
    · simp [cellsErase, cellsRead, h, ih]

theorem cellsRead_erase_other {a b : Nat} (hab : b ≠ a) (l : List (Nat × Word)) :
    cellsRead b (cellsErase a l) = cellsRead b l := by
  induction l with
  | nil => rfl
  | cons p rest ih =>
    by_cases h : p.1 = a
    · simp [cellsErase, cellsRead, h, ih]
      omega
    · simp [cellsErase, cellsRead, h, ih]

theorem cellsRead_insert_same (a : Nat) (v : Word) (l : List (Nat × Word)) : cellsRead a (cellsInsert a v l) = v := by
  induction l with
  | nil => simp [cellsInsert, cellsRead]
  | cons p rest ih =>
    unfold cellsInsert
    split
    · simp [cellsRead]
    · split
      · simp [cellsRead]
      · simp [cellsRead, *]

theorem cellsRead_insert_other {a b : Nat} (hab : b ≠ a) (v : Word) (l : List (Nat × Word)) :
    cellsRead b (cellsInsert a v l) = cellsRead b l := by
  have hba : a ≠ b := fun h => hab h.symm
  induction l with
  | nil => simp [cellsInsert, cellsRead, hba]
  | cons p rest ih =>
    unfold cellsInsert
    split
    · simp [cellsRead, hba]
    · split
      · next hp => simp [cellsRead, hp, hba]
      · simp [cellsRead, ih]

theorem cellsRead_write_same (a : Nat) (v : Word) (l : List (Nat × Word)) : cellsRead a (cellsWrite a v l) = v := by
  by_cases h : v = unlistedWord
  · simp [cellsWrite, h, cellsRead_erase_same]
  · simp [cellsWrite, h, cellsRead_insert_same]

theorem cellsRead_write_other {a b : Nat} (hab : b ≠ a) (v : Word) (l : List (Nat × Word)) :
    cellsRead b (cellsWrite a v l) = cellsRead b l := by
  by_cases h : v = unlistedWord
  · simp [cellsWrite, h, cellsRead_erase_other hab]
  · simp [cellsWrite, h, cellsRead_insert_other hab]

@[simp] theorem put_size (m : Memory) (a : Nat) (v : Word) : (m.put a v).size = m.size := rfl

theorem put_cell_same {m : Memory} {a : Nat} (h : a < m.size) (v : Word) : (m.put a v).cell a = some v := by
  simp [Memory.cell, Memory.put, h, cellsRead_write_same]

theorem put_cell_other {m : Memory} {a b : Nat} (hab : b ≠ a) (v : Word) : (m.put a v).cell b = m.cell b := by
  simp [Memory.cell, Memory.put, cellsRead_write_other hab]

/-! ### Listed addresses after a write -/

theorem mem_cellsErase {a : Nat} {q : Nat × Word} {l : List (Nat × Word)} (h : q ∈ cellsErase a l) : q ∈ l := by
  induction l with
  | nil => simp [cellsErase] at h
  | cons p rest ih =>
    by_cases hp : p.1 = a
    · exact List.mem_cons_of_mem _ (ih (by simpa [cellsErase, hp] using h))
    · rcases List.mem_cons.mp (by simpa [cellsErase, hp] using h) with rfl | h'
      · exact List.mem_cons_self
      · exact List.mem_cons_of_mem _ (ih h')

theorem mem_cellsInsert {a : Nat} {v : Word} {q : Nat × Word} {l : List (Nat × Word)} (h : q ∈ cellsInsert a v l) :
    q = (a, v) ∨ q ∈ l := by
  induction l with
  | nil => exact .inl (by simpa [cellsInsert] using h)
  | cons p rest ih =>
    unfold cellsInsert at h
    split at h
    · exact List.mem_cons.mp h
    · split at h
      · rcases List.mem_cons.mp h with h' | h'
        · exact .inl h'
        · exact .inr (List.mem_cons_of_mem _ h')
      · rcases List.mem_cons.mp h with rfl | h'
        · exact .inr List.mem_cons_self
        · rcases ih h' with h'' | h''
          · exact .inl h''
          · exact .inr (List.mem_cons_of_mem _ h'')

/-! ### The canonical form is kept -/

theorem rising_erase {a : Nat} {l : List (Nat × Word)} (h : l.Pairwise (fun p q => p.1 < q.1)) :
    (cellsErase a l).Pairwise (fun p q => p.1 < q.1) := by
  induction l with
  | nil => exact List.Pairwise.nil
  | cons p rest ih =>
    have ⟨hp, hr⟩ := List.pairwise_cons.mp h
    by_cases hpa : p.1 = a
    · simpa [cellsErase, hpa] using ih hr
    · simpa [cellsErase, hpa] using ⟨fun x y hq => hp (x, y) (mem_cellsErase hq), ih hr⟩

theorem rising_insert {a : Nat} {v : Word} {l : List (Nat × Word)} (h : l.Pairwise (fun p q => p.1 < q.1)) :
    (cellsInsert a v l).Pairwise (fun p q => p.1 < q.1) := by
  induction l with
  | nil => simp [cellsInsert]
  | cons p rest ih =>
    have ⟨hp, hr⟩ := List.pairwise_cons.mp h
    unfold cellsInsert
    split
    · next hlt =>
      refine List.pairwise_cons.mpr ⟨fun q hq => ?_, h⟩
      rcases List.mem_cons.mp hq with rfl | hq'
      · exact hlt
      · have := hp q hq'
        simp only at this ⊢
        omega
    · split
      · next hpa => exact List.pairwise_cons.mpr ⟨fun q hq => by have := hp q hq; simp only; omega, hr⟩
      · refine List.pairwise_cons.mpr ⟨fun q hq => ?_, ih hr⟩
        rcases mem_cellsInsert hq with rfl | hq'
        · simp only
          omega
        · exact hp q hq'

theorem put_wf {m : Memory} {a : Nat} (h : m.wf) (ha : a < m.size) (v : Word) : (m.put a v).wf := by
  obtain ⟨hr, hc, h1, h2⟩ := h
  by_cases hv : v = unlistedWord
  · exact ⟨by simpa [Memory.put, cellsWrite, hv] using rising_erase hr,
      fun q hq => hc q (mem_cellsErase (by simpa [Memory.put, cellsWrite, hv] using hq)), h1, h2⟩
  · refine ⟨by simpa [Memory.put, cellsWrite, hv] using rising_insert hr, fun q hq => ?_, h1, h2⟩
    rcases mem_cellsInsert (by simpa [Memory.put, cellsWrite, hv] using hq : q ∈ cellsInsert a v m.cells) with rfl | hq'
    · exact ⟨hv, ha⟩
    · exact hc q hq'

theorem grow_wf {m : Memory} {n : Nat} (h : m.wf) (hn : n ≤ 65536) : (m.grow n).wf := by
  obtain ⟨hr, hc, h1, h2⟩ := h
  refine ⟨hr, fun q hq => ⟨(hc q hq).1, ?_⟩, ?_, ?_⟩
  · have := (hc q hq).2
    simp only [Memory.grow]
    omega
  · simp only [Memory.grow]
    omega
  · simp only [Memory.grow]
    omega

theorem clear_wf {m : Memory} (h : m.wf) : m.clear.wf :=
  ⟨List.Pairwise.nil, fun q hq => by simp [Memory.clear] at hq, h.2.2⟩

@[simp] theorem putWords_size (m : Memory) (base : Nat) (ws : List Word) : (m.putWords base ws).size = m.size := by
  induction ws generalizing m base with
  | nil => rfl
  | cons w ws ih => simp [Memory.putWords, ih]

theorem putWords_wf {m : Memory} {base : Nat} {ws : List Word} (h : m.wf) (hb : base + ws.length ≤ m.size) :
    (m.putWords base ws).wf := by
  induction ws generalizing m base with
  | nil => exact h
  | cons w ws ih =>
    simp only [List.length_cons] at hb
    exact ih (put_wf h (by omega) w) (by simp only [put_size]; omega)

/-- What a run of words written one after the other leaves in the cells (R66). -/
theorem putWords_cell {m : Memory} {base : Nat} {ws : List Word} (h : base + ws.length ≤ m.size) :
    (∀ k w, ws[k]? = some w → (m.putWords base ws).cell (base + k) = some w) ∧
    (∀ a, a < base ∨ base + ws.length ≤ a → (m.putWords base ws).cell a = m.cell a) := by
  induction ws generalizing m base with
  | nil => exact ⟨by simp, fun a _ => rfl⟩
  | cons w ws ih =>
    simp only [List.length_cons] at h ⊢
    have ih := ih (m := m.put base w) (base := base + 1) (by simp only [put_size]; omega)
    refine ⟨fun k v hk => ?_, fun a ha => ?_⟩
    · cases k with
      | zero =>
        simp only [List.getElem?_cons_zero, Option.some.injEq] at hk
        subst hk
        simp only [Memory.putWords, Nat.add_zero]
        rw [ih.2 base (by omega)]
        exact put_cell_same (by omega) _
      | succ k =>
        rw [show base + (k + 1) = base + 1 + k by omega]
        exact ih.1 k v (by simpa using hk)
    · simp only [Memory.putWords]
      rw [ih.2 a (by omega)]
      exact put_cell_other (by omega) _

theorem memWrite_wf {s : State} {a v : Word} {m : Memory} (h : s.mem.wf) (hm : memWrite s a v = .ok m) : m.wf := by
  unfold memWrite at hm
  split at hm
  · next ha => cases hm; exact put_wf h ha v
  · cases hm

theorem create_mem_wf {p : Config.Params} (h : p.valid) : (State.create p).mem.wf :=
  ⟨List.Pairwise.nil, fun q hq => by simp [State.create] at hq, h.1, h.2.1⟩

theorem reset_mem_wf : State.reset.mem.wf := create_mem_wf (by decide)

end Sys2Proof.Machine
end

