-- ==== Sys2Proof/Laws/State.lean ====
section
/-! SUPPORT. One lemma per field per update of the state: what each write changes and what it leaves. -/

namespace Sys2Proof.Machine

open Sys2Proof

/-! ### withAcc -/

@[simp] theorem withAcc_acc (s : State) (v : Word) : (s.withAcc v).acc = v := rfl
@[simp] theorem withAcc_pc (s : State) (v : Word) : (s.withAcc v).pc = s.pc := rfl
@[simp] theorem withAcc_gpr (s : State) (v : Word) : (s.withAcc v).gpr = s.gpr := rfl
@[simp] theorem withAcc_flags (s : State) (v : Word) : (s.withAcc v).flags = s.flags := rfl
@[simp] theorem withAcc_cycles (s : State) (v : Word) : (s.withAcc v).cycles = s.cycles := rfl
@[simp] theorem withAcc_halted (s : State) (v : Word) : (s.withAcc v).halted = s.halted := rfl
@[simp] theorem withAcc_phase (s : State) (v : Word) : (s.withAcc v).phase = s.phase := rfl
@[simp] theorem withAcc_ir0 (s : State) (v : Word) : (s.withAcc v).ir0 = s.ir0 := rfl
@[simp] theorem withAcc_ir1 (s : State) (v : Word) : (s.withAcc v).ir1 = s.ir1 := rfl
@[simp] theorem withAcc_irAddr (s : State) (v : Word) : (s.withAcc v).irAddr = s.irAddr := rfl
@[simp] theorem withAcc_dOp (s : State) (v : Word) : (s.withAcc v).dOp = s.dOp := rfl
@[simp] theorem withAcc_dMode (s : State) (v : Word) : (s.withAcc v).dMode = s.dMode := rfl
@[simp] theorem withAcc_dOperand (s : State) (v : Word) : (s.withAcc v).dOperand = s.dOperand := rfl
@[simp] theorem withAcc_fault (s : State) (v : Word) : (s.withAcc v).fault = s.fault := rfl
@[simp] theorem withAcc_faultInfo (s : State) (v : Word) : (s.withAcc v).faultInfo = s.faultInfo := rfl
@[simp] theorem withAcc_mem (s : State) (v : Word) : (s.withAcc v).mem = s.mem := rfl
@[simp] theorem withAcc_history (s : State) (v : Word) : (s.withAcc v).history = s.history := rfl

/-! ### withPc -/

@[simp] theorem withPc_acc (s : State) (t : Word) : (s.withPc t).acc = s.acc := rfl
@[simp] theorem withPc_pc (s : State) (t : Word) : (s.withPc t).pc = t := rfl
@[simp] theorem withPc_gpr (s : State) (t : Word) : (s.withPc t).gpr = s.gpr := rfl
@[simp] theorem withPc_flags (s : State) (t : Word) : (s.withPc t).flags = s.flags := rfl
@[simp] theorem withPc_cycles (s : State) (t : Word) : (s.withPc t).cycles = s.cycles := rfl
@[simp] theorem withPc_halted (s : State) (t : Word) : (s.withPc t).halted = s.halted := rfl
@[simp] theorem withPc_phase (s : State) (t : Word) : (s.withPc t).phase = s.phase := rfl
@[simp] theorem withPc_ir0 (s : State) (t : Word) : (s.withPc t).ir0 = s.ir0 := rfl
@[simp] theorem withPc_ir1 (s : State) (t : Word) : (s.withPc t).ir1 = s.ir1 := rfl
@[simp] theorem withPc_irAddr (s : State) (t : Word) : (s.withPc t).irAddr = s.irAddr := rfl
@[simp] theorem withPc_dOp (s : State) (t : Word) : (s.withPc t).dOp = s.dOp := rfl
@[simp] theorem withPc_dMode (s : State) (t : Word) : (s.withPc t).dMode = s.dMode := rfl
@[simp] theorem withPc_dOperand (s : State) (t : Word) : (s.withPc t).dOperand = s.dOperand := rfl
@[simp] theorem withPc_fault (s : State) (t : Word) : (s.withPc t).fault = s.fault := rfl
@[simp] theorem withPc_faultInfo (s : State) (t : Word) : (s.withPc t).faultInfo = s.faultInfo := rfl
@[simp] theorem withPc_mem (s : State) (t : Word) : (s.withPc t).mem = s.mem := rfl
@[simp] theorem withPc_history (s : State) (t : Word) : (s.withPc t).history = s.history := rfl

/-! ### withFlags -/

@[simp] theorem withFlags_acc (s : State) (f : Flags) : (s.withFlags f).acc = s.acc := rfl
@[simp] theorem withFlags_pc (s : State) (f : Flags) : (s.withFlags f).pc = s.pc := rfl
@[simp] theorem withFlags_gpr (s : State) (f : Flags) : (s.withFlags f).gpr = s.gpr := rfl
@[simp] theorem withFlags_flags (s : State) (f : Flags) : (s.withFlags f).flags = f := rfl
@[simp] theorem withFlags_cycles (s : State) (f : Flags) : (s.withFlags f).cycles = s.cycles := rfl
@[simp] theorem withFlags_halted (s : State) (f : Flags) : (s.withFlags f).halted = s.halted := rfl
@[simp] theorem withFlags_phase (s : State) (f : Flags) : (s.withFlags f).phase = s.phase := rfl
@[simp] theorem withFlags_ir0 (s : State) (f : Flags) : (s.withFlags f).ir0 = s.ir0 := rfl
@[simp] theorem withFlags_ir1 (s : State) (f : Flags) : (s.withFlags f).ir1 = s.ir1 := rfl
@[simp] theorem withFlags_irAddr (s : State) (f : Flags) : (s.withFlags f).irAddr = s.irAddr := rfl
@[simp] theorem withFlags_dOp (s : State) (f : Flags) : (s.withFlags f).dOp = s.dOp := rfl
@[simp] theorem withFlags_dMode (s : State) (f : Flags) : (s.withFlags f).dMode = s.dMode := rfl
@[simp] theorem withFlags_dOperand (s : State) (f : Flags) : (s.withFlags f).dOperand = s.dOperand := rfl
@[simp] theorem withFlags_fault (s : State) (f : Flags) : (s.withFlags f).fault = s.fault := rfl
@[simp] theorem withFlags_faultInfo (s : State) (f : Flags) : (s.withFlags f).faultInfo = s.faultInfo := rfl
@[simp] theorem withFlags_mem (s : State) (f : Flags) : (s.withFlags f).mem = s.mem := rfl
@[simp] theorem withFlags_history (s : State) (f : Flags) : (s.withFlags f).history = s.history := rfl

/-! ### withMem -/

@[simp] theorem withMem_acc (s : State) (m : Memory) : (s.withMem m).acc = s.acc := rfl
@[simp] theorem withMem_pc (s : State) (m : Memory) : (s.withMem m).pc = s.pc := rfl
@[simp] theorem withMem_gpr (s : State) (m : Memory) : (s.withMem m).gpr = s.gpr := rfl
@[simp] theorem withMem_flags (s : State) (m : Memory) : (s.withMem m).flags = s.flags := rfl
@[simp] theorem withMem_cycles (s : State) (m : Memory) : (s.withMem m).cycles = s.cycles := rfl
@[simp] theorem withMem_halted (s : State) (m : Memory) : (s.withMem m).halted = s.halted := rfl
@[simp] theorem withMem_phase (s : State) (m : Memory) : (s.withMem m).phase = s.phase := rfl
@[simp] theorem withMem_ir0 (s : State) (m : Memory) : (s.withMem m).ir0 = s.ir0 := rfl
@[simp] theorem withMem_ir1 (s : State) (m : Memory) : (s.withMem m).ir1 = s.ir1 := rfl
@[simp] theorem withMem_irAddr (s : State) (m : Memory) : (s.withMem m).irAddr = s.irAddr := rfl
@[simp] theorem withMem_dOp (s : State) (m : Memory) : (s.withMem m).dOp = s.dOp := rfl
@[simp] theorem withMem_dMode (s : State) (m : Memory) : (s.withMem m).dMode = s.dMode := rfl
@[simp] theorem withMem_dOperand (s : State) (m : Memory) : (s.withMem m).dOperand = s.dOperand := rfl
@[simp] theorem withMem_fault (s : State) (m : Memory) : (s.withMem m).fault = s.fault := rfl
@[simp] theorem withMem_faultInfo (s : State) (m : Memory) : (s.withMem m).faultInfo = s.faultInfo := rfl
@[simp] theorem withMem_mem (s : State) (m : Memory) : (s.withMem m).mem = m := rfl
@[simp] theorem withMem_history (s : State) (m : Memory) : (s.withMem m).history = s.history := rfl

/-! ### withHalted -/

@[simp] theorem withHalted_acc (s : State) : s.withHalted.acc = s.acc := rfl
@[simp] theorem withHalted_pc (s : State) : s.withHalted.pc = s.pc := rfl
@[simp] theorem withHalted_gpr (s : State) : s.withHalted.gpr = s.gpr := rfl
@[simp] theorem withHalted_flags (s : State) : s.withHalted.flags = s.flags := rfl
@[simp] theorem withHalted_cycles (s : State) : s.withHalted.cycles = s.cycles := rfl
@[simp] theorem withHalted_halted (s : State) : s.withHalted.halted = true := rfl
@[simp] theorem withHalted_phase (s : State) : s.withHalted.phase = s.phase := rfl
@[simp] theorem withHalted_ir0 (s : State) : s.withHalted.ir0 = s.ir0 := rfl
@[simp] theorem withHalted_ir1 (s : State) : s.withHalted.ir1 = s.ir1 := rfl
@[simp] theorem withHalted_irAddr (s : State) : s.withHalted.irAddr = s.irAddr := rfl
@[simp] theorem withHalted_dOp (s : State) : s.withHalted.dOp = s.dOp := rfl
@[simp] theorem withHalted_dMode (s : State) : s.withHalted.dMode = s.dMode := rfl
@[simp] theorem withHalted_dOperand (s : State) : s.withHalted.dOperand = s.dOperand := rfl
@[simp] theorem withHalted_fault (s : State) : s.withHalted.fault = s.fault := rfl
@[simp] theorem withHalted_faultInfo (s : State) : s.withHalted.faultInfo = s.faultInfo := rfl
@[simp] theorem withHalted_mem (s : State) : s.withHalted.mem = s.mem := rfl
@[simp] theorem withHalted_history (s : State) : s.withHalted.history = s.history := rfl

/-! ### raiseError -/

@[simp] theorem raiseError_acc (s : State) (r : Raise) : (raiseError s r).acc = s.acc := rfl
@[simp] theorem raiseError_pc (s : State) (r : Raise) : (raiseError s r).pc = s.pc := rfl
@[simp] theorem raiseError_gpr (s : State) (r : Raise) : (raiseError s r).gpr = s.gpr := rfl
@[simp] theorem raiseError_flags (s : State) (r : Raise) : (raiseError s r).flags = s.flags := rfl
@[simp] theorem raiseError_cycles (s : State) (r : Raise) : (raiseError s r).cycles = s.cycles := rfl
@[simp] theorem raiseError_halted (s : State) (r : Raise) : (raiseError s r).halted = s.halted := rfl
@[simp] theorem raiseError_phase (s : State) (r : Raise) : (raiseError s r).phase = s.phase := rfl
@[simp] theorem raiseError_ir0 (s : State) (r : Raise) : (raiseError s r).ir0 = s.ir0 := rfl
@[simp] theorem raiseError_ir1 (s : State) (r : Raise) : (raiseError s r).ir1 = s.ir1 := rfl
@[simp] theorem raiseError_irAddr (s : State) (r : Raise) : (raiseError s r).irAddr = s.irAddr := rfl
@[simp] theorem raiseError_dOp (s : State) (r : Raise) : (raiseError s r).dOp = s.dOp := rfl
@[simp] theorem raiseError_dMode (s : State) (r : Raise) : (raiseError s r).dMode = s.dMode := rfl
@[simp] theorem raiseError_dOperand (s : State) (r : Raise) : (raiseError s r).dOperand = s.dOperand := rfl
@[simp] theorem raiseError_fault (s : State) (r : Raise) : (raiseError s r).fault = r.code := rfl
@[simp] theorem raiseError_faultInfo (s : State) (r : Raise) : (raiseError s r).faultInfo = r.info := rfl
@[simp] theorem raiseError_mem (s : State) (r : Raise) : (raiseError s r).mem = s.mem := rfl
@[simp] theorem raiseError_history (s : State) (r : Raise) : (raiseError s r).history = s.history := rfl

/-! ### takeSnapshot -/

@[simp] theorem takeSnapshot_acc (tag : Tag) (s : State) : (takeSnapshot tag s).acc = s.acc := rfl
@[simp] theorem takeSnapshot_pc (tag : Tag) (s : State) : (takeSnapshot tag s).pc = s.pc := rfl
@[simp] theorem takeSnapshot_gpr (tag : Tag) (s : State) : (takeSnapshot tag s).gpr = s.gpr := rfl
@[simp] theorem takeSnapshot_flags (tag : Tag) (s : State) : (takeSnapshot tag s).flags = s.flags := rfl
@[simp] theorem takeSnapshot_cycles (tag : Tag) (s : State) : (takeSnapshot tag s).cycles = s.cycles := rfl
@[simp] theorem takeSnapshot_halted (tag : Tag) (s : State) : (takeSnapshot tag s).halted = s.halted := rfl
@[simp] theorem takeSnapshot_phase (tag : Tag) (s : State) : (takeSnapshot tag s).phase = s.phase := rfl
@[simp] theorem takeSnapshot_ir0 (tag : Tag) (s : State) : (takeSnapshot tag s).ir0 = s.ir0 := rfl
@[simp] theorem takeSnapshot_ir1 (tag : Tag) (s : State) : (takeSnapshot tag s).ir1 = s.ir1 := rfl
@[simp] theorem takeSnapshot_irAddr (tag : Tag) (s : State) : (takeSnapshot tag s).irAddr = s.irAddr := rfl
@[simp] theorem takeSnapshot_dOp (tag : Tag) (s : State) : (takeSnapshot tag s).dOp = s.dOp := rfl
@[simp] theorem takeSnapshot_dMode (tag : Tag) (s : State) : (takeSnapshot tag s).dMode = s.dMode := rfl
@[simp] theorem takeSnapshot_dOperand (tag : Tag) (s : State) : (takeSnapshot tag s).dOperand = s.dOperand := rfl
@[simp] theorem takeSnapshot_fault (tag : Tag) (s : State) : (takeSnapshot tag s).fault = s.fault := rfl
@[simp] theorem takeSnapshot_faultInfo (tag : Tag) (s : State) : (takeSnapshot tag s).faultInfo = s.faultInfo := rfl
@[simp] theorem takeSnapshot_mem (tag : Tag) (s : State) : (takeSnapshot tag s).mem = s.mem := rfl
@[simp] theorem takeSnapshot_history (tag : Tag) (s : State) : (takeSnapshot tag s).history = s.history ++ [snapshotOf tag s] := rfl

/-! ### writeFlags -/

@[simp] theorem writeFlags_acc (out : AluOut) (s : State) : (writeFlags out s).acc = s.acc := rfl
@[simp] theorem writeFlags_pc (out : AluOut) (s : State) : (writeFlags out s).pc = s.pc := rfl
@[simp] theorem writeFlags_gpr (out : AluOut) (s : State) : (writeFlags out s).gpr = s.gpr := rfl
@[simp] theorem writeFlags_flags (out : AluOut) (s : State) : (writeFlags out s).flags = maskedFlags out.mask out.flags s.flags := rfl
@[simp] theorem writeFlags_cycles (out : AluOut) (s : State) : (writeFlags out s).cycles = s.cycles := rfl
@[simp] theorem writeFlags_halted (out : AluOut) (s : State) : (writeFlags out s).halted = s.halted := rfl
@[simp] theorem writeFlags_phase (out : AluOut) (s : State) : (writeFlags out s).phase = s.phase := rfl
@[simp] theorem writeFlags_ir0 (out : AluOut) (s : State) : (writeFlags out s).ir0 = s.ir0 := rfl
@[simp] theorem writeFlags_ir1 (out : AluOut) (s : State) : (writeFlags out s).ir1 = s.ir1 := rfl
@[simp] theorem writeFlags_irAddr (out : AluOut) (s : State) : (writeFlags out s).irAddr = s.irAddr := rfl
@[simp] theorem writeFlags_dOp (out : AluOut) (s : State) : (writeFlags out s).dOp = s.dOp := rfl
@[simp] theorem writeFlags_dMode (out : AluOut) (s : State) : (writeFlags out s).dMode = s.dMode := rfl
@[simp] theorem writeFlags_dOperand (out : AluOut) (s : State) : (writeFlags out s).dOperand = s.dOperand := rfl
@[simp] theorem writeFlags_fault (out : AluOut) (s : State) : (writeFlags out s).fault = s.fault := rfl
@[simp] theorem writeFlags_faultInfo (out : AluOut) (s : State) : (writeFlags out s).faultInfo = s.faultInfo := rfl
@[simp] theorem writeFlags_mem (out : AluOut) (s : State) : (writeFlags out s).mem = s.mem := rfl
@[simp] theorem writeFlags_history (out : AluOut) (s : State) : (writeFlags out s).history = s.history := rfl

/-! ### finishExecute -/

@[simp] theorem finishExecute_acc (p : Phase) (s : State) : (finishExecute p s).acc = s.acc := rfl
@[simp] theorem finishExecute_pc (p : Phase) (s : State) : (finishExecute p s).pc = s.pc := rfl
@[simp] theorem finishExecute_gpr (p : Phase) (s : State) : (finishExecute p s).gpr = s.gpr := rfl
@[simp] theorem finishExecute_flags (p : Phase) (s : State) : (finishExecute p s).flags = s.flags := rfl
@[simp] theorem finishExecute_cycles (p : Phase) (s : State) : (finishExecute p s).cycles = s.cycles + 1 := rfl
@[simp] theorem finishExecute_halted (p : Phase) (s : State) : (finishExecute p s).halted = s.halted := rfl
@[simp] theorem finishExecute_phase (p : Phase) (s : State) : (finishExecute p s).phase = p := rfl
@[simp] theorem finishExecute_ir0 (p : Phase) (s : State) : (finishExecute p s).ir0 = s.ir0 := rfl
@[simp] theorem finishExecute_ir1 (p : Phase) (s : State) : (finishExecute p s).ir1 = s.ir1 := rfl
@[simp] theorem finishExecute_irAddr (p : Phase) (s : State) : (finishExecute p s).irAddr = s.irAddr := rfl
@[simp] theorem finishExecute_dOp (p : Phase) (s : State) : (finishExecute p s).dOp = s.dOp := rfl
@[simp] theorem finishExecute_dMode (p : Phase) (s : State) : (finishExecute p s).dMode = s.dMode := rfl
@[simp] theorem finishExecute_dOperand (p : Phase) (s : State) : (finishExecute p s).dOperand = s.dOperand := rfl
@[simp] theorem finishExecute_fault (p : Phase) (s : State) : (finishExecute p s).fault = s.fault := rfl
@[simp] theorem finishExecute_faultInfo (p : Phase) (s : State) : (finishExecute p s).faultInfo = s.faultInfo := rfl
@[simp] theorem finishExecute_mem (p : Phase) (s : State) : (finishExecute p s).mem = s.mem := rfl
@[simp] theorem finishExecute_history (p : Phase) (s : State) : (finishExecute p s).history = s.history ++ [snapshotOf .execute { s with cycles := s.cycles + 1 }] := rfl

/-! ### fetched -/

@[simp] theorem fetched_acc (s : State) (w0 w1 : Word) (len : Nat) : (fetched s w0 w1 len).acc = s.acc := rfl
@[simp] theorem fetched_pc (s : State) (w0 w1 : Word) (len : Nat) : (fetched s w0 w1 len).pc = BitVec.ofNat 16 ((s.pc.toNat + len) % 65536) := rfl
@[simp] theorem fetched_gpr (s : State) (w0 w1 : Word) (len : Nat) : (fetched s w0 w1 len).gpr = s.gpr := rfl
@[simp] theorem fetched_flags (s : State) (w0 w1 : Word) (len : Nat) : (fetched s w0 w1 len).flags = s.flags := rfl
@[simp] theorem fetched_cycles (s : State) (w0 w1 : Word) (len : Nat) : (fetched s w0 w1 len).cycles = s.cycles := rfl
@[simp] theorem fetched_halted (s : State) (w0 w1 : Word) (len : Nat) : (fetched s w0 w1 len).halted = s.halted := rfl
@[simp] theorem fetched_phase (s : State) (w0 w1 : Word) (len : Nat) : (fetched s w0 w1 len).phase = .decode := rfl
@[simp] theorem fetched_ir0 (s : State) (w0 w1 : Word) (len : Nat) : (fetched s w0 w1 len).ir0 = w0 := rfl
@[simp] theorem fetched_ir1 (s : State) (w0 w1 : Word) (len : Nat) : (fetched s w0 w1 len).ir1 = w1 := rfl
@[simp] theorem fetched_irAddr (s : State) (w0 w1 : Word) (len : Nat) : (fetched s w0 w1 len).irAddr = s.pc := rfl
@[simp] theorem fetched_dOp (s : State) (w0 w1 : Word) (len : Nat) : (fetched s w0 w1 len).dOp = s.dOp := rfl
@[simp] theorem fetched_dMode (s : State) (w0 w1 : Word) (len : Nat) : (fetched s w0 w1 len).dMode = s.dMode := rfl
@[simp] theorem fetched_dOperand (s : State) (w0 w1 : Word) (len : Nat) : (fetched s w0 w1 len).dOperand = s.dOperand := rfl
@[simp] theorem fetched_fault (s : State) (w0 w1 : Word) (len : Nat) : (fetched s w0 w1 len).fault = s.fault := rfl
@[simp] theorem fetched_faultInfo (s : State) (w0 w1 : Word) (len : Nat) : (fetched s w0 w1 len).faultInfo = s.faultInfo := rfl
@[simp] theorem fetched_mem (s : State) (w0 w1 : Word) (len : Nat) : (fetched s w0 w1 len).mem = s.mem := rfl
@[simp] theorem fetched_history (s : State) (w0 w1 : Word) (len : Nat) : (fetched s w0 w1 len).history = s.history ++ [snapshotOf .fetch { s with irAddr := s.pc, pc := BitVec.ofNat 16 ((s.pc.toNat + len) % 65536) }] := rfl

/-! ### decoded -/

@[simp] theorem decoded_acc (s : State) (t : Triple) : (decoded s t).acc = s.acc := rfl
@[simp] theorem decoded_pc (s : State) (t : Triple) : (decoded s t).pc = s.pc := rfl
@[simp] theorem decoded_gpr (s : State) (t : Triple) : (decoded s t).gpr = s.gpr := rfl
@[simp] theorem decoded_flags (s : State) (t : Triple) : (decoded s t).flags = s.flags := rfl
@[simp] theorem decoded_cycles (s : State) (t : Triple) : (decoded s t).cycles = s.cycles := rfl
@[simp] theorem decoded_halted (s : State) (t : Triple) : (decoded s t).halted = s.halted := rfl
@[simp] theorem decoded_phase (s : State) (t : Triple) : (decoded s t).phase = .execute := rfl
@[simp] theorem decoded_ir0 (s : State) (t : Triple) : (decoded s t).ir0 = s.ir0 := rfl
@[simp] theorem decoded_ir1 (s : State) (t : Triple) : (decoded s t).ir1 = s.ir1 := rfl
@[simp] theorem decoded_irAddr (s : State) (t : Triple) : (decoded s t).irAddr = s.irAddr := rfl
@[simp] theorem decoded_dOp (s : State) (t : Triple) : (decoded s t).dOp = t.op := rfl
@[simp] theorem decoded_dMode (s : State) (t : Triple) : (decoded s t).dMode = t.mode := rfl
@[simp] theorem decoded_dOperand (s : State) (t : Triple) : (decoded s t).dOperand = t.operand := rfl
@[simp] theorem decoded_fault (s : State) (t : Triple) : (decoded s t).fault = s.fault := rfl
@[simp] theorem decoded_faultInfo (s : State) (t : Triple) : (decoded s t).faultInfo = s.faultInfo := rfl
@[simp] theorem decoded_mem (s : State) (t : Triple) : (decoded s t).mem = s.mem := rfl
@[simp] theorem decoded_history (s : State) (t : Triple) : (decoded s t).history = s.history ++ [snapshotOf .decode s] := rfl

end Sys2Proof.Machine
end

