-- ==== Sys2Proof/Laws/Ops.lean ====
section
/-! SUPPORT. For each shared operation, what it can do, said once: proofs cite these instead of unfolding the operations. -/

namespace Sys2Proof.Machine

open Sys2Proof

@[simp] theorem except_bind_ok {α β : Type} (a : α) (f : α → Except Raise β) : (Except.ok a >>= f) = f a := rfl

@[simp] theorem except_bind_error {α β : Type} (r : Raise) (f : α → Except Raise β) :
    ((Except.error r : Except Raise α) >>= f) = .error r := rfl

/-! ### Memory access -/

theorem cell_eq_none {m : Memory} {a : Nat} : m.cell a = none ↔ m.size ≤ a := by
  unfold Memory.cell
  split <;> simp <;> omega

theorem cell_eq_some {m : Memory} {a : Nat} {v : Word} :
    m.cell a = some v ↔ a < m.size ∧ cellsRead a m.cells = v := by
  unfold Memory.cell
  split <;> simp_all

theorem memRead_of_cell {s : State} {a : Addr17} {v : Word} (h : s.mem.cell a.toNat = some v) : memRead s a = .ok v := by
  simp [memRead, h]

theorem memRead_of_none {s : State} {a : Addr17} (h : s.mem.cell a.toNat = none) :
    memRead s a = .error { code := .addressOutOfRange, info := a } := by
  simp [memRead, h]

theorem memRead_cases {s : State} {a : Addr17} {r : Except Raise Word} (h : memRead s a = r) :
    (∃ v, s.mem.cell a.toNat = some v ∧ r = .ok v) ∨
    (s.mem.size ≤ a.toNat ∧ r = .error { code := .addressOutOfRange, info := a }) := by
  subst h
  cases hc : s.mem.cell a.toNat with
  | some v => exact .inl ⟨v, rfl, memRead_of_cell hc⟩
  | none => exact .inr ⟨cell_eq_none.mp hc, memRead_of_none hc⟩

theorem memWrite_cases {s : State} {a v : Word} {r : Except Raise Memory} (h : memWrite s a v = r) :
    (a.toNat < s.mem.size ∧ r = .ok (s.mem.put a.toNat v)) ∨
    (s.mem.size ≤ a.toNat ∧ r = .error { code := .addressOutOfRange, info := a.setWidth 17 }) := by
  subst h
  unfold memWrite
  split
  · exact .inl ⟨by assumption, rfl⟩
  · exact .inr ⟨by omega, rfl⟩

/-! ### Operands -/

theorem toNat_setWidth17 (a : Word) : (a.setWidth 17).toNat = a.toNat := by
  have := a.isLt
  simp only [BitVec.toNat_setWidth]
  omega

@[simp] theorem operandValue_immediate (v : Word) (s : State) : operandValue .immediate v s = .ok v := rfl

theorem operandValue_direct {s : State} {a v : Word} (h : s.mem.cell a.toNat = some v) :
    operandValue .direct a s = .ok v :=
  memRead_of_cell (by rw [effAddr, toNat_setWidth17]; exact h)

theorem operandValue_direct_none {s : State} {a : Word} (h : s.mem.cell a.toNat = none) :
    operandValue .direct a s = .error { code := .addressOutOfRange, info := a.setWidth 17 } :=
  memRead_of_none (by rw [effAddr, toNat_setWidth17]; exact h)

theorem operandValue_error {m : Mode} {a : Word} {s : State} {r : Raise} (h : operandValue m a s = .error r) :
    m = .direct ∧ s.mem.size ≤ a.toNat ∧ r = { code := .addressOutOfRange, info := a.setWidth 17 } := by
  cases m with
  | immediate => cases h
  | direct =>
    rcases memRead_cases h with ⟨v, -, hv⟩ | ⟨hs, hr⟩
    · cases hv
    · rw [effAddr, toNat_setWidth17] at hs
      exact ⟨rfl, hs, by cases hr; rfl⟩

/-! ### The ALU -/

theorem aluResult_eq_none {f : AluOp} {a b : Word} : aluResult f a b = none ↔ f = .div ∧ b = 0x0000 := by
  cases f <;> simp [aluResult]

theorem alu_some {f : AluOp} {a b r : Word} (h : aluResult f a b = some r) :
    alu f a b = some { r := r, flags := flagUnit f.kind a b r, mask := f.mask } := by
  simp [alu, h]

theorem aluOrRaise_ok {f : AluOp} {b r : Word} {s : State} (h : aluResult f s.acc b = some r) :
    aluOrRaise f b s = .ok { r := r, flags := flagUnit f.kind s.acc b r, mask := f.mask } := by
  simp [aluOrRaise, alu_some h]

theorem aluOrRaise_div_zero (s : State) :
    aluOrRaise .div 0x0000 s = .error { code := .arithmeticError, info := s.irAddr.setWidth 17 } := rfl

theorem aluOrRaise_error {f : AluOp} {b : Word} {s : State} {r : Raise} (h : aluOrRaise f b s = .error r) :
    f = .div ∧ b = 0x0000 ∧ r = { code := .arithmeticError, info := s.irAddr.setWidth 17 } := by
  unfold aluOrRaise at h
  split at h
  · cases h
  · next ha =>
    have hn : aluResult f s.acc b = none := by simpa [alu] using ha
    exact ⟨(aluResult_eq_none.mp hn).1, (aluResult_eq_none.mp hn).2, by cases h; rfl⟩

/-- With every mask bit set the flag unit's outputs are the new flags. -/
@[simp] theorem maskedFlags_all (out old : Flags) : maskedFlags { zn := true, cv := true } out old = out := rfl

/-- With the mask {Z, N} the flags C and V are kept, whatever the flag unit puts out for them. -/
@[simp] theorem maskedFlags_zn (out old : Flags) :
    maskedFlags { zn := true, cv := false } out old = { z := out.z, c := old.c, v := old.v, n := out.n } := rfl

/-! ### The end of a phase -/

@[simp] theorem commit_ok (s t : State) : commit s (.ok t) = .next t := rfl

@[simp] theorem commit_error (s : State) (r : Raise) : commit s (.error r) = .next (raiseError s r) := rfl

/-- A phase always ends in a next state. -/
theorem commit_next (s : State) (e : Except Raise State) : ∃ t, commit s e = .next t := by
  cases e <;> exact ⟨_, rfl⟩

theorem executePhase_ok {next : Phase} {effect : State → Except Raise State} {s t : State} (h : effect s = .ok t) :
    executePhase next effect s = .next (finishExecute next t) := by
  simp [executePhase, h, Except.map]

theorem executePhase_error {next : Phase} {effect : State → Except Raise State} {s : State} {r : Raise}
    (h : effect s = .error r) : executePhase next effect s = .next (raiseError s r) := by
  simp [executePhase, h, Except.map]

/-- Everything an EXECUTE phase can do: the effect's writes in the frame of R104, or the error and nothing else. -/
theorem executePhase_cases {next : Phase} {effect : State → Except Raise State} {s t : State}
    (h : executePhase next effect s = .next t) :
    (∃ u, effect s = .ok u ∧ t = finishExecute next u) ∨ (∃ r, effect s = .error r ∧ t = raiseError s r) := by
  cases he : effect s with
  | ok u => rw [executePhase_ok he] at h; cases h; exact .inl ⟨u, rfl, rfl⟩
  | error r => rw [executePhase_error he] at h; cases h; exact .inr ⟨r, rfl, rfl⟩

/-! ### Effects of one shape -/

theorem loadEffect_cases {m : Mode} {a : Word} {s : State} {e : Except Raise State} (h : loadEffect m a s = e) :
    (∃ v, operandValue m a s = .ok v ∧ e = .ok (s.withAcc v)) ∨
    (∃ r, operandValue m a s = .error r ∧ e = .error r) := by
  subst h
  cases ho : operandValue m a s with
  | ok v => exact .inl ⟨v, rfl, by simp [loadEffect, ho]⟩
  | error r => exact .inr ⟨r, rfl, by simp [loadEffect, ho]⟩

theorem staEffect_cases {m : Mode} {a : Word} {s : State} {e : Except Raise State} (h : staEffect m a s = e) :
    (a.toNat < s.mem.size ∧ e = .ok (s.withMem (s.mem.put a.toNat s.acc))) ∨
    (s.mem.size ≤ a.toNat ∧ e = .error { code := .addressOutOfRange, info := a.setWidth 17 }) := by
  subst h
  rcases memWrite_cases (rfl : memWrite s a s.acc = _) with ⟨ha, hm⟩ | ⟨ha, hm⟩
  · exact .inl ⟨ha, by simp [staEffect, effAddr, hm]⟩
  · exact .inr ⟨ha, by simp [staEffect, effAddr, hm]⟩

theorem aluEffect_cases {f : AluOp} {m : Mode} {a : Word} {s : State} {e : Except Raise State}
    (h : aluEffect f m a s = e) :
    (∃ b r, operandValue m a s = .ok b ∧ aluResult f s.acc b = some r ∧
      e = .ok ((s.withFlags (maskedFlags f.mask (flagUnit f.kind s.acc b r) s.flags)).withAcc r)) ∨
    (∃ r, operandValue m a s = .error r ∧ e = .error r) ∨
    (f = .div ∧ operandValue m a s = .ok 0x0000 ∧
      e = .error { code := .arithmeticError, info := s.irAddr.setWidth 17 }) := by
  subst h
  cases ho : operandValue m a s with
  | error r => exact .inr (.inl ⟨r, rfl, by simp [aluEffect, ho]⟩)
  | ok b =>
    cases hr : aluResult f s.acc b with
    | some r =>
      refine .inl ⟨b, r, rfl, hr, ?_⟩
      simp [aluEffect, ho, aluOrRaise_ok hr, writeFlags]
    | none =>
      obtain ⟨rfl, rfl⟩ := aluResult_eq_none.mp hr
      refine .inr (.inr ⟨rfl, rfl, ?_⟩)
      simp only [aluEffect, ho, except_bind_ok, aluOrRaise_div_zero, except_bind_error]

theorem cmpEffect_cases {m : Mode} {a : Word} {s : State} {e : Except Raise State} (h : cmpEffect m a s = e) :
    (∃ b r, operandValue m a s = .ok b ∧ aluResult .sub s.acc b = some r ∧
      e = .ok (s.withFlags (flagUnit .sub s.acc b r))) ∨
    (∃ r, operandValue m a s = .error r ∧ e = .error r) := by
  subst h
  cases ho : operandValue m a s with
  | error r => exact .inr ⟨r, rfl, by simp [cmpEffect, ho]⟩
  | ok b =>
    obtain ⟨r, hr⟩ : ∃ r, aluResult .sub s.acc b = some r := ⟨_, rfl⟩
    refine .inl ⟨b, r, rfl, hr, ?_⟩
    simp [cmpEffect, ho, aluOrRaise_ok hr, writeFlags, AluOp.mask, AluOp.kind]

theorem notEffect_ok (s : State) :
    ∃ r, aluResult .not s.acc 0x0000 = some r ∧
      notEffect s = .ok ((s.withFlags { s.flags with z := decide (r = 0x0000), n := r.getLsbD 15 }).withAcc r) :=
  ⟨_, rfl, rfl⟩

theorem jumpEffect_cases {taken : Bool} {m : Mode} {a : Word} {s : State} {e : Except Raise State}
    (h : jumpEffect taken m a s = e) :
    (taken = true ∧ ∃ t, operandValue m a s = .ok t ∧ e = .ok (s.withPc t)) ∨
    (taken = true ∧ ∃ r, operandValue m a s = .error r ∧ e = .error r) ∨
    (taken = false ∧ e = .ok s) := by
  subst h
  cases taken with
  | false => exact .inr (.inr ⟨rfl, rfl⟩)
  | true =>
    cases ho : operandValue m a s with
    | ok t => exact .inl ⟨rfl, t, rfl, by simp [jumpEffect, ho]⟩
    | error r => exact .inr (.inl ⟨rfl, r, rfl, by simp [jumpEffect, ho]⟩)

/-! ### The phases -/

/-- Everything FETCH can do (R102). -/
theorem doFetch_cases {s : State} {e : Except Raise State} (h : doFetch s = e) :
    (s.mem.size ≤ s.pc.toNat ∧ e = .error { code := .addressOutOfRange, info := s.pc.setWidth 17 }) ∨
    (∃ w0, s.mem.cell s.pc.toNat = some w0 ∧ wideBit w0 = false ∧ e = .ok (fetched s w0 0x0000 1)) ∨
    (∃ w0, s.mem.cell s.pc.toNat = some w0 ∧ wideBit w0 = true ∧ s.mem.size ≤ s.pc.toNat + 1 ∧
      e = .error { code := .addressOutOfRange, info := s.pc.setWidth 17 + 1 }) ∨
    (∃ w0 w1, s.mem.cell s.pc.toNat = some w0 ∧ wideBit w0 = true ∧ s.mem.cell (s.pc.toNat + 1) = some w1 ∧
      e = .ok (fetched s w0 w1 2)) := by
  subst h
  have hadd : (s.pc.setWidth 17 + 1).toNat = s.pc.toNat + 1 := by
    have := s.pc.isLt
    simp only [BitVec.toNat_add, toNat_setWidth17]
    simp
    omega
  rcases memRead_cases (rfl : memRead s (s.pc.setWidth 17) = _) with ⟨w0, hc, hr⟩ | ⟨hs, hr⟩
  · rw [toNat_setWidth17] at hc
    cases hw : wideBit w0 with
    | false => exact .inr (.inl ⟨w0, hc, hw, by simp [doFetch, hr, hw]⟩)
    | true =>
      rcases memRead_cases (rfl : memRead s (s.pc.setWidth 17 + 1) = _) with ⟨w1, hc1, hr1⟩ | ⟨hs1, hr1⟩
      · exact .inr (.inr (.inr ⟨w0, w1, hc, hw, by rwa [hadd] at hc1, by simp only [doFetch, hr, hr1, except_bind_ok, hw, if_true]⟩))
      · exact .inr (.inr (.inl ⟨w0, hc, hw, by rwa [hadd] at hs1, by simp only [doFetch, hr, hr1, except_bind_ok, except_bind_error, hw, if_true]⟩))
  · exact .inl ⟨by rwa [toNat_setWidth17] at hs, by simp [doFetch, hr]⟩

/-- Everything DECODE can do (R103). -/
theorem doDecode_cases {s : State} {e : Except Raise State} (h : doDecode s = e) :
    (∃ t, decodeTriple s.ir0 s.ir1 = .ok t ∧ e = .ok (decoded s t)) ∨
    (∃ c, decodeTriple s.ir0 s.ir1 = .error c ∧ e = .error { code := .decodeError, info := s.ir0.setWidth 17 }) := by
  subst h
  cases hd : decodeTriple s.ir0 s.ir1 with
  | ok t => exact .inl ⟨t, rfl, by simp [doDecode, hd]⟩
  | error c => exact .inr ⟨c, rfl, by simp [doDecode, hd]⟩

theorem step_faulted {s : State} (h : s.fault ≠ .none) : step s = .next s := by
  simp [step, stepPhase, h]

theorem step_halted {s : State} (h : s.halted = true) : step s = .next s := by
  simp only [step, stepPhase, h]
  split <;> rfl

theorem step_fetch {s : State} (h : running s) (hp : s.phase = .fetch) : step s = commit s (doFetch s) := by
  simp [step, stepPhase, h.1, h.2, hp]

theorem step_decode {s : State} (h : running s) (hp : s.phase = .decode) : step s = commit s (doDecode s) := by
  simp [step, stepPhase, h.1, h.2, hp]

theorem step_execute {s : State} (h : running s) (hp : s.phase = .execute) : step s = executeLatched s := by
  simp [step, stepPhase, h.1, h.2, hp]

/-- Everything a step can do: a no-op, or the one phase that `phase` names (R101). -/
theorem step_cases {s t : State} (h : step s = .next t) :
    (¬ running s ∧ t = s) ∨
    (running s ∧ s.phase = .fetch ∧ commit s (doFetch s) = .next t) ∨
    (running s ∧ s.phase = .decode ∧ commit s (doDecode s) = .next t) ∨
    (running s ∧ s.phase = .execute ∧
      ∃ i, instrOfLatches (wideBit s.ir0) (latchTriple s) = some i ∧ exec i s = .next t) ∨
    (running s ∧ s.phase = .halted ∧ t = s) := by
  by_cases hf : s.fault = .none
  · cases hh : s.halted with
    | true =>
      rw [step_halted hh] at h
      cases h
      exact .inl ⟨fun hr => absurd (hh.symm.trans hr.2) (by decide), rfl⟩
    | false =>
      have hr : running s := ⟨hf, hh⟩
      cases hp : s.phase with
      | fetch => exact .inr (.inl ⟨hr, rfl, by rw [← step_fetch hr hp]; exact h⟩)
      | decode => exact .inr (.inr (.inl ⟨hr, rfl, by rw [← step_decode hr hp]; exact h⟩))
      | execute =>
        rw [step_execute hr hp] at h
        unfold executeLatched at h
        split at h
        · next i hi => exact .inr (.inr (.inr (.inl ⟨hr, rfl, i, hi, h⟩)))
        · cases h
      | halted =>
        have h' : step s = .next s := by simp [step, stepPhase, hf, hh, hp]
        rw [h'] at h
        cases h
        exact .inr (.inr (.inr (.inr ⟨hr, rfl, rfl⟩)))
  · rw [step_faulted hf] at h
    cases h
    exact .inl ⟨fun hr => hf hr.1, rfl⟩

end Sys2Proof.Machine
end

