-- ==== Sys2Proof/Laws/PerInstr.lean ====
section
/-! SUPPORT. Facts about every instruction row, one lemma per constructor: the length of its encoding, and the way back
from the decoded latches to the row. -/

namespace Sys2Proof.Laws

open Sys2Proof

/-- The encoding has one word, or two when the row is wide, and the first word's bit 10 says which (30_encoding.md R74). -/
def EncodedLength.Statement (i : Instr) : Prop :=
  (encode i).length = (if i.isWide then 2 else 1) ∧ ∀ w0 ∈ (encode i).head?, wideBit w0 = i.isWide

/-- The decoded latches of a row, with its W bit, give the row back. -/
def LatchRoundTrip.Statement (i : Instr) : Prop := instrOfLatches i.isWide i.triple = some i

@[simp] theorem ofNumber_number (o : Opcode) : Opcode.ofNumber o.number = some o := by
  cases o <;> rfl

theorem wideBit_firstWord (o : BitVec 5) (w m : Bool) (imm9 : BitVec 9) : wideBit (firstWord o w m imm9) = w := by
  simp only [wideBit, firstWord, BitVec.getLsbD_append]
  cases w <;> rfl

theorem length_short (i : Instr) (h : i.isWide = false) : EncodedLength.Statement i := by
  refine ⟨by simp [encode, h], fun w0 hw => ?_⟩
  have hw' : i.op.shortWord (i.operand.setWidth 9) = w0 := by simpa [encode, h] using hw
  subst hw'
  unfold Opcode.shortWord
  split <;> rw [wideBit_firstWord, h]

theorem length_wide (i : Instr) (h : i.isWide = true) : EncodedLength.Statement i := by
  refine ⟨by simp [encode, h], fun w0 hw => ?_⟩
  have hw' : i.op.wideWord = w0 := by simpa [encode, h] using hw
  subst hw'
  rw [Opcode.wideWord, wideBit_firstWord, h]

theorem latch_short (o : Opcode) (m : Mode) (imm9 : BitVec 9) :
    instrOfLatches false { op := o.number, operand := imm9.setWidth 16, mode := m } = some (o.shortInstr m imm9) := by
  have hlt := imm9.isLt
  have hb : (imm9.setWidth 16).toNat ≤ 0x1FF := by
    simp only [BitVec.toNat_setWidth]
    omega
  have hs : (imm9.setWidth 16).setWidth 9 = imm9 := by
    apply BitVec.eq_of_toNat_eq
    simp only [BitVec.toNat_setWidth]
    omega
  simp only [instrOfLatches, ofNumber_number, Option.map_some, hb, hs, and_self, if_true]

theorem latch_wide (o : Opcode) (m : Mode) (imm16 : Word) :
    instrOfLatches true { op := o.number, operand := imm16, mode := m } = some (o.wideInstr m imm16) := by
  simp [instrOfLatches]

theorem EncodedLength.nop : EncodedLength.Statement (.nop) :=
  length_short _ rfl

theorem EncodedLength.halt : EncodedLength.Statement (.halt) :=
  length_short _ rfl

theorem EncodedLength.ldiS (m : Mode) (imm9 : BitVec 9) : EncodedLength.Statement (.ldiS m imm9) :=
  length_short _ rfl

theorem EncodedLength.ldiW (m : Mode) (imm16 : Word) : EncodedLength.Statement (.ldiW m imm16) :=
  length_wide _ rfl

theorem EncodedLength.ldaS (m : Mode) (imm9 : BitVec 9) : EncodedLength.Statement (.ldaS m imm9) :=
  length_short _ rfl

theorem EncodedLength.ldaW (m : Mode) (imm16 : Word) : EncodedLength.Statement (.ldaW m imm16) :=
  length_wide _ rfl

theorem EncodedLength.staS (m : Mode) (imm9 : BitVec 9) : EncodedLength.Statement (.staS m imm9) :=
  length_short _ rfl

theorem EncodedLength.staW (m : Mode) (imm16 : Word) : EncodedLength.Statement (.staW m imm16) :=
  length_wide _ rfl

theorem EncodedLength.addS (m : Mode) (imm9 : BitVec 9) : EncodedLength.Statement (.addS m imm9) :=
  length_short _ rfl

theorem EncodedLength.addW (m : Mode) (imm16 : Word) : EncodedLength.Statement (.addW m imm16) :=
  length_wide _ rfl

theorem EncodedLength.subS (m : Mode) (imm9 : BitVec 9) : EncodedLength.Statement (.subS m imm9) :=
  length_short _ rfl

theorem EncodedLength.subW (m : Mode) (imm16 : Word) : EncodedLength.Statement (.subW m imm16) :=
  length_wide _ rfl

theorem EncodedLength.mulS (m : Mode) (imm9 : BitVec 9) : EncodedLength.Statement (.mulS m imm9) :=
  length_short _ rfl

theorem EncodedLength.mulW (m : Mode) (imm16 : Word) : EncodedLength.Statement (.mulW m imm16) :=
  length_wide _ rfl

theorem EncodedLength.divS (m : Mode) (imm9 : BitVec 9) : EncodedLength.Statement (.divS m imm9) :=
  length_short _ rfl

theorem EncodedLength.divW (m : Mode) (imm16 : Word) : EncodedLength.Statement (.divW m imm16) :=
  length_wide _ rfl

theorem EncodedLength.cmpS (m : Mode) (imm9 : BitVec 9) : EncodedLength.Statement (.cmpS m imm9) :=
  length_short _ rfl

theorem EncodedLength.cmpW (m : Mode) (imm16 : Word) : EncodedLength.Statement (.cmpW m imm16) :=
  length_wide _ rfl

theorem EncodedLength.andS (m : Mode) (imm9 : BitVec 9) : EncodedLength.Statement (.andS m imm9) :=
  length_short _ rfl

theorem EncodedLength.andW (m : Mode) (imm16 : Word) : EncodedLength.Statement (.andW m imm16) :=
  length_wide _ rfl

theorem EncodedLength.orS (m : Mode) (imm9 : BitVec 9) : EncodedLength.Statement (.orS m imm9) :=
  length_short _ rfl

theorem EncodedLength.orW (m : Mode) (imm16 : Word) : EncodedLength.Statement (.orW m imm16) :=
  length_wide _ rfl

theorem EncodedLength.xorS (m : Mode) (imm9 : BitVec 9) : EncodedLength.Statement (.xorS m imm9) :=
  length_short _ rfl

theorem EncodedLength.xorW (m : Mode) (imm16 : Word) : EncodedLength.Statement (.xorW m imm16) :=
  length_wide _ rfl

theorem EncodedLength.not : EncodedLength.Statement (.not) :=
  length_short _ rfl

theorem EncodedLength.jmpS (m : Mode) (imm9 : BitVec 9) : EncodedLength.Statement (.jmpS m imm9) :=
  length_short _ rfl

theorem EncodedLength.jmpW (m : Mode) (imm16 : Word) : EncodedLength.Statement (.jmpW m imm16) :=
  length_wide _ rfl

theorem EncodedLength.jzS (m : Mode) (imm9 : BitVec 9) : EncodedLength.Statement (.jzS m imm9) :=
  length_short _ rfl

theorem EncodedLength.jzW (m : Mode) (imm16 : Word) : EncodedLength.Statement (.jzW m imm16) :=
  length_wide _ rfl

theorem EncodedLength.jnzS (m : Mode) (imm9 : BitVec 9) : EncodedLength.Statement (.jnzS m imm9) :=
  length_short _ rfl

theorem EncodedLength.jnzW (m : Mode) (imm16 : Word) : EncodedLength.Statement (.jnzW m imm16) :=
  length_wide _ rfl

theorem EncodedLength.jcS (m : Mode) (imm9 : BitVec 9) : EncodedLength.Statement (.jcS m imm9) :=
  length_short _ rfl

theorem EncodedLength.jcW (m : Mode) (imm16 : Word) : EncodedLength.Statement (.jcW m imm16) :=
  length_wide _ rfl

theorem EncodedLength.jncS (m : Mode) (imm9 : BitVec 9) : EncodedLength.Statement (.jncS m imm9) :=
  length_short _ rfl

theorem EncodedLength.jncW (m : Mode) (imm16 : Word) : EncodedLength.Statement (.jncW m imm16) :=
  length_wide _ rfl

theorem EncodedLength.jvS (m : Mode) (imm9 : BitVec 9) : EncodedLength.Statement (.jvS m imm9) :=
  length_short _ rfl

theorem EncodedLength.jvW (m : Mode) (imm16 : Word) : EncodedLength.Statement (.jvW m imm16) :=
  length_wide _ rfl

theorem EncodedLength.jnvS (m : Mode) (imm9 : BitVec 9) : EncodedLength.Statement (.jnvS m imm9) :=
  length_short _ rfl

theorem EncodedLength.jnvW (m : Mode) (imm16 : Word) : EncodedLength.Statement (.jnvW m imm16) :=
  length_wide _ rfl

theorem EncodedLength.jnS (m : Mode) (imm9 : BitVec 9) : EncodedLength.Statement (.jnS m imm9) :=
  length_short _ rfl

theorem EncodedLength.jnW (m : Mode) (imm16 : Word) : EncodedLength.Statement (.jnW m imm16) :=
  length_wide _ rfl

theorem EncodedLength.jnnS (m : Mode) (imm9 : BitVec 9) : EncodedLength.Statement (.jnnS m imm9) :=
  length_short _ rfl

theorem EncodedLength.jnnW (m : Mode) (imm16 : Word) : EncodedLength.Statement (.jnnW m imm16) :=
  length_wide _ rfl

theorem LatchRoundTrip.nop : LatchRoundTrip.Statement (.nop) :=
  rfl

theorem LatchRoundTrip.halt : LatchRoundTrip.Statement (.halt) :=
  rfl

theorem LatchRoundTrip.ldiS (m : Mode) (imm9 : BitVec 9) : LatchRoundTrip.Statement (.ldiS m imm9) :=
  latch_short .ldi _ _

theorem LatchRoundTrip.ldiW (m : Mode) (imm16 : Word) : LatchRoundTrip.Statement (.ldiW m imm16) :=
  latch_wide .ldi _ _

theorem LatchRoundTrip.ldaS (m : Mode) (imm9 : BitVec 9) : LatchRoundTrip.Statement (.ldaS m imm9) :=
  latch_short .lda _ _

theorem LatchRoundTrip.ldaW (m : Mode) (imm16 : Word) : LatchRoundTrip.Statement (.ldaW m imm16) :=
  latch_wide .lda _ _

theorem LatchRoundTrip.staS (m : Mode) (imm9 : BitVec 9) : LatchRoundTrip.Statement (.staS m imm9) :=
  latch_short .sta _ _

theorem LatchRoundTrip.staW (m : Mode) (imm16 : Word) : LatchRoundTrip.Statement (.staW m imm16) :=
  latch_wide .sta _ _

theorem LatchRoundTrip.addS (m : Mode) (imm9 : BitVec 9) : LatchRoundTrip.Statement (.addS m imm9) :=
  latch_short .add _ _

theorem LatchRoundTrip.addW (m : Mode) (imm16 : Word) : LatchRoundTrip.Statement (.addW m imm16) :=
  latch_wide .add _ _

theorem LatchRoundTrip.subS (m : Mode) (imm9 : BitVec 9) : LatchRoundTrip.Statement (.subS m imm9) :=
  latch_short .sub _ _

theorem LatchRoundTrip.subW (m : Mode) (imm16 : Word) : LatchRoundTrip.Statement (.subW m imm16) :=
  latch_wide .sub _ _

theorem LatchRoundTrip.mulS (m : Mode) (imm9 : BitVec 9) : LatchRoundTrip.Statement (.mulS m imm9) :=
  latch_short .mul _ _

theorem LatchRoundTrip.mulW (m : Mode) (imm16 : Word) : LatchRoundTrip.Statement (.mulW m imm16) :=
  latch_wide .mul _ _

theorem LatchRoundTrip.divS (m : Mode) (imm9 : BitVec 9) : LatchRoundTrip.Statement (.divS m imm9) :=
  latch_short .div _ _

theorem LatchRoundTrip.divW (m : Mode) (imm16 : Word) : LatchRoundTrip.Statement (.divW m imm16) :=
  latch_wide .div _ _

theorem LatchRoundTrip.cmpS (m : Mode) (imm9 : BitVec 9) : LatchRoundTrip.Statement (.cmpS m imm9) :=
  latch_short .cmp _ _

theorem LatchRoundTrip.cmpW (m : Mode) (imm16 : Word) : LatchRoundTrip.Statement (.cmpW m imm16) :=
  latch_wide .cmp _ _

theorem LatchRoundTrip.andS (m : Mode) (imm9 : BitVec 9) : LatchRoundTrip.Statement (.andS m imm9) :=
  latch_short .and _ _

theorem LatchRoundTrip.andW (m : Mode) (imm16 : Word) : LatchRoundTrip.Statement (.andW m imm16) :=
  latch_wide .and _ _

theorem LatchRoundTrip.orS (m : Mode) (imm9 : BitVec 9) : LatchRoundTrip.Statement (.orS m imm9) :=
  latch_short .or _ _

theorem LatchRoundTrip.orW (m : Mode) (imm16 : Word) : LatchRoundTrip.Statement (.orW m imm16) :=
  latch_wide .or _ _

theorem LatchRoundTrip.xorS (m : Mode) (imm9 : BitVec 9) : LatchRoundTrip.Statement (.xorS m imm9) :=
  latch_short .xor _ _

theorem LatchRoundTrip.xorW (m : Mode) (imm16 : Word) : LatchRoundTrip.Statement (.xorW m imm16) :=
  latch_wide .xor _ _

theorem LatchRoundTrip.not : LatchRoundTrip.Statement (.not) :=
  rfl

theorem LatchRoundTrip.jmpS (m : Mode) (imm9 : BitVec 9) : LatchRoundTrip.Statement (.jmpS m imm9) :=
  latch_short .jmp _ _

theorem LatchRoundTrip.jmpW (m : Mode) (imm16 : Word) : LatchRoundTrip.Statement (.jmpW m imm16) :=
  latch_wide .jmp _ _

theorem LatchRoundTrip.jzS (m : Mode) (imm9 : BitVec 9) : LatchRoundTrip.Statement (.jzS m imm9) :=
  latch_short .jz _ _

theorem LatchRoundTrip.jzW (m : Mode) (imm16 : Word) : LatchRoundTrip.Statement (.jzW m imm16) :=
  latch_wide .jz _ _

theorem LatchRoundTrip.jnzS (m : Mode) (imm9 : BitVec 9) : LatchRoundTrip.Statement (.jnzS m imm9) :=
  latch_short .jnz _ _

theorem LatchRoundTrip.jnzW (m : Mode) (imm16 : Word) : LatchRoundTrip.Statement (.jnzW m imm16) :=
  latch_wide .jnz _ _

theorem LatchRoundTrip.jcS (m : Mode) (imm9 : BitVec 9) : LatchRoundTrip.Statement (.jcS m imm9) :=
  latch_short .jc _ _

theorem LatchRoundTrip.jcW (m : Mode) (imm16 : Word) : LatchRoundTrip.Statement (.jcW m imm16) :=
  latch_wide .jc _ _

theorem LatchRoundTrip.jncS (m : Mode) (imm9 : BitVec 9) : LatchRoundTrip.Statement (.jncS m imm9) :=
  latch_short .jnc _ _

theorem LatchRoundTrip.jncW (m : Mode) (imm16 : Word) : LatchRoundTrip.Statement (.jncW m imm16) :=
  latch_wide .jnc _ _

theorem LatchRoundTrip.jvS (m : Mode) (imm9 : BitVec 9) : LatchRoundTrip.Statement (.jvS m imm9) :=
  latch_short .jv _ _

theorem LatchRoundTrip.jvW (m : Mode) (imm16 : Word) : LatchRoundTrip.Statement (.jvW m imm16) :=
  latch_wide .jv _ _

theorem LatchRoundTrip.jnvS (m : Mode) (imm9 : BitVec 9) : LatchRoundTrip.Statement (.jnvS m imm9) :=
  latch_short .jnv _ _

theorem LatchRoundTrip.jnvW (m : Mode) (imm16 : Word) : LatchRoundTrip.Statement (.jnvW m imm16) :=
  latch_wide .jnv _ _

theorem LatchRoundTrip.jnS (m : Mode) (imm9 : BitVec 9) : LatchRoundTrip.Statement (.jnS m imm9) :=
  latch_short .jn _ _

theorem LatchRoundTrip.jnW (m : Mode) (imm16 : Word) : LatchRoundTrip.Statement (.jnW m imm16) :=
  latch_wide .jn _ _

theorem LatchRoundTrip.jnnS (m : Mode) (imm9 : BitVec 9) : LatchRoundTrip.Statement (.jnnS m imm9) :=
  latch_short .jnn _ _

theorem LatchRoundTrip.jnnW (m : Mode) (imm16 : Word) : LatchRoundTrip.Statement (.jnnW m imm16) :=
  latch_wide .jnn _ _

end Sys2Proof.Laws
end

