-- ==== Sys2Proof/Laws/Encoding.lean ====
section
/-! SUPPORT. The fields of a first word written by the encoder, and the decoder on such a word (30_encoding.md R72, R80). -/

namespace Sys2Proof.Laws

open Sys2Proof

theorem opcField_firstWord (o : BitVec 5) (w m : Bool) (imm9 : BitVec 9) : opcField (firstWord o w m imm9) = o := by
  apply BitVec.eq_of_getLsbD_eq
  intro k hk
  simp only [opcField, firstWord, BitVec.getLsbD_extractLsb', BitVec.getLsbD_append]
  rw [if_neg (by omega), if_neg (by omega), if_neg (by omega)]
  simp only [hk, decide_true, Bool.true_and]
  congr 1
  omega

theorem modeBit_firstWord (o : BitVec 5) (w m : Bool) (imm9 : BitVec 9) : modeBit (firstWord o w m imm9) = m := by
  simp only [modeBit, firstWord, BitVec.getLsbD_append]
  cases m <;> rfl

theorem imm9Field_firstWord (o : BitVec 5) (w m : Bool) (imm9 : BitVec 9) :
    imm9Field (firstWord o w m imm9) = imm9 := by
  apply BitVec.eq_of_getLsbD_eq
  intro k hk
  simp only [imm9Field, firstWord, BitVec.getLsbD_extractLsb', BitVec.getLsbD_append]
  simp [hk]

/-- A first word is its four fields put together. -/
theorem firstWord_of_fields (w0 : Word) :
    firstWord (opcField w0) (wideBit w0) (modeBit w0) (imm9Field w0) = w0 := by
  apply BitVec.eq_of_getLsbD_eq
  intro k hk
  simp only [imm9Field, opcField, wideBit, modeBit, firstWord, BitVec.getLsbD_extractLsb', BitVec.getLsbD_append]
  rcases Nat.lt_or_ge k 9 with h | h
  · simp [h]
  · rcases Nat.lt_or_ge k 10 with h' | h'
    · obtain rfl : k = 9 := by omega
      simp
    · rcases Nat.lt_or_ge k 11 with h'' | h''
      · obtain rfl : k = 10 := by omega
        simp
      · rw [if_neg (by omega), if_neg (by omega), if_neg (by omega)]
        have h5 : k - 9 - 1 - 1 < 5 := by omega
        simp only [h5, decide_true, Bool.true_and]
        congr 1
        omega

/-- The decoder on a word with an assigned opcode (R80). -/
theorem decode_firstWord (o : Opcode) (w m : Bool) (imm9 : BitVec 9) (w1 : Word) :
    decode (firstWord o.number w m imm9) w1 =
      (if o.arity = 0 then
        if w = true ∨ m = true ∨ imm9 ≠ 0 then .error .arityZeroFields else .ok (o.shortInstr .immediate 0)
      else if modeOfBit m ≠ o.canonicalMode then .error .modeNotCanonical
      else if w = false then .ok (o.shortInstr (modeOfBit m) imm9)
      else if imm9 ≠ 0 then .error .wideImm9NotZero
      else .ok (o.wideInstr (modeOfBit m) w1)) := by
  unfold decode
  rw [opcField_firstWord, ofNumber_number]
  simp only [wideBit_firstWord, modeBit_firstWord, imm9Field_firstWord]

@[simp] theorem modeOfBit_bitOfMode (m : Mode) : modeOfBit (bitOfMode m) = m := by
  cases m <;> rfl

/-- The decoder on the short word of an opcode. -/
theorem decode_shortWord (o : Opcode) (imm9 : BitVec 9) (w1 : Word) :
    decode (o.shortWord imm9) w1 = .ok (o.shortInstr o.canonicalMode (if o.arity = 0 then 0 else imm9)) := by
  unfold Opcode.shortWord
  cases o <;> simp [Opcode.arity, decode_firstWord, Opcode.canonicalMode]

/-- The decoder on the wide word of an opcode of arity 1. -/
theorem decode_wideWord (o : Opcode) (h : o.arity ≠ 0) (w1 : Word) :
    decode o.wideWord w1 = .ok (o.wideInstr o.canonicalMode w1) := by
  simp [Opcode.wideWord, decode_firstWord, h]

/-- The operand of a short row goes back into the 9-bit field. -/
theorem setWidth9_of_zext (imm9 : BitVec 9) : (imm9.setWidth 16).setWidth 9 = imm9 := by
  apply BitVec.eq_of_toNat_eq
  have := imm9.isLt
  simp only [BitVec.toNat_setWidth]
  omega

/-- The encoder's first word of a short row has bit 10 clear. -/
theorem wideBit_shortWord (o : Opcode) (imm9 : BitVec 9) : wideBit (o.shortWord imm9) = false := by
  unfold Opcode.shortWord
  split <;> exact wideBit_firstWord _ _ _ _

/-- The triple of a short row of arity 1 (R75). -/
theorem triple_shortInstr {o : Opcode} (h : o.arity ≠ 0) (m : Mode) (imm9 : BitVec 9) :
    (o.shortInstr m imm9).triple = { op := o.number, operand := imm9.setWidth 16, mode := m } := by
  cases o <;> first | rfl | exact absurd rfl h

/-- The triple of a wide row of arity 1 (R75). -/
theorem triple_wideInstr {o : Opcode} (h : o.arity ≠ 0) (m : Mode) (imm16 : Word) :
    (o.wideInstr m imm16).triple = { op := o.number, operand := imm16, mode := m } := by
  cases o <;> first | rfl | exact absurd rfl h

/-- The triple of an instruction of arity 0 (R70). -/
theorem triple_arityZero {o : Opcode} (h : o.arity = 0) (m : Mode) (imm9 : BitVec 9) :
    (o.shortInstr m imm9).triple = { op := o.number, operand := 0, mode := .immediate } := by
  cases o <;> first | rfl | exact absurd h (by decide)

theorem canonicalMode_arityZero {o : Opcode} (h : o.arity = 0) : o.canonicalMode = .immediate := by
  cases o <;> first | rfl | exact absurd h (by decide)

/-- Everything a successful decode says: the first word is the encoder's word of the row. -/
theorem decode_ok_cases {w0 w1 : Word} {i : Instr} (h : decode w0 w1 = .ok i) :
    ∃ o : Opcode, opcField w0 = o.number ∧
      ((o.arity = 0 ∧ wideBit w0 = false ∧ w0 = o.shortWord 0 ∧ i = o.shortInstr .immediate 0) ∨
       (o.arity ≠ 0 ∧ wideBit w0 = false ∧ w0 = o.shortWord (imm9Field w0) ∧
          i = o.shortInstr o.canonicalMode (imm9Field w0)) ∨
       (o.arity ≠ 0 ∧ wideBit w0 = true ∧ w0 = o.wideWord ∧ i = o.wideInstr o.canonicalMode w1)) := by
  have hb : ∀ b, bitOfMode (modeOfBit b) = b := by decide
  have hn : ∀ (n : BitVec 5) o, Opcode.ofNumber n = some o → n = o.number := by decide +revert
  have hf := firstWord_of_fields w0
  unfold decode at h
  split at h
  · cases h
  · next o ho =>
    have ho' := hn _ _ ho
    refine ⟨o, ho', ?_⟩
    split at h
    · next h0 =>
      split at h
      · cases h
      · next h1 =>
        simp only [not_or, Bool.not_eq_true, not_not] at h1
        cases h
        refine .inl ⟨h0, h1.1, ?_, rfl⟩
        rw [← hf, ho', h1.1, h1.2.1, h1.2.2]
        simp [Opcode.shortWord, h0]
    · next h0 =>
      split at h
      · cases h
      · next hm =>
        simp only [not_not] at hm
        have hm' : modeBit w0 = bitOfMode o.canonicalMode := by rw [← hm, hb]
        split at h
        · next hw =>
          cases h
          refine .inr (.inl ⟨h0, hw, ?_, by rw [hm]⟩)
          conv => lhs; rw [← hf, ho', hw, hm']
          simp [Opcode.shortWord, h0]
        · next hw =>
          simp only [Bool.not_eq_false] at hw
          split at h
          · cases h
          · next hi =>
            simp only [not_not] at hi
            cases h
            refine .inr (.inr ⟨h0, hw, ?_, by rw [hm]⟩)
            conv => lhs; rw [← hf, ho', hw, hm', hi]
            rfl

/-- The latches written from a decoded instruction hold that instruction, with the W bit of its first word. -/
theorem instrOfLatches_of_decode {w0 w1 : Word} {i : Instr} (h : decode w0 w1 = .ok i) :
    instrOfLatches (wideBit w0) i.triple = some i ∧ i.wellFormed := by
  obtain ⟨o, -, ⟨h0, hw, -, rfl⟩ | ⟨h0, hw, -, rfl⟩ | ⟨h0, hw, -, rfl⟩⟩ := decode_ok_cases h <;> rw [hw]
  · rw [triple_arityZero h0]
    revert h0
    cases o <;> intro h0 <;> first | exact ⟨rfl, rfl⟩ | exact absurd h0 (by decide)
  · refine ⟨?_, by cases o <;> rfl⟩
    rw [triple_shortInstr h0]
    exact latch_short _ _ _
  · refine ⟨?_, by cases o <;> rfl⟩
    rw [triple_wideInstr h0]
    exact latch_wide _ _ _

end Sys2Proof.Laws
end

