-- ==== Sys2Proof/Laws/Exec.lean ====
section
/-! SUPPORT. The meanings seen through the triple: both rows of an instruction have the effect of its opcode, and what that
effect can write or raise is said once. -/

namespace Sys2Proof.Machine

open Sys2Proof

/-- The effect of a triple, by opcode (40_fsm.md R104). -/
def effectOf (o : Opcode) (m : Mode) (v : Word) : State → Except Raise State :=
  match o with
  | .nop => nopEffect
  | .halt => haltEffect
  | .ldi => ldiEffect m v
  | .lda => ldaEffect m v
  | .sta => staEffect m v
  | .add => addEffect m v
  | .sub => subEffect m v
  | .mul => mulEffect m v
  | .div => divEffect m v
  | .cmp => cmpEffect m v
  | .and => andEffect m v
  | .or => orEffect m v
  | .xor => xorEffect m v
  | .not => notEffect
  | .jmp => jmpEffect m v
  | .jz => jzEffect m v
  | .jnz => jnzEffect m v
  | .jc => jcEffect m v
  | .jnc => jncEffect m v
  | .jv => jvEffect m v
  | .jnv => jnvEffect m v
  | .jn => jnEffect m v
  | .jnn => jnnEffect m v

/-- The phase after a completed EXECUTE (R100). -/
def phaseAfter (o : Opcode) : Phase := if o = .halt then .halted else .fetch

/-- Every meaning is the effect of its opcode, mode and operand in the frame of R104, whatever the row. -/
theorem exec_eq_effectOf (i : Instr) (s : State) :
    exec i s = executePhase (phaseAfter i.op) (effectOf i.op i.mode i.operand) s := by
  cases i <;> rfl

/-- `exec` always answers a next state: the completed phase, or the runtime error taken. -/
theorem exec_next (i : Instr) (s : State) : ∃ t, exec i s = .next t := by
  rw [exec_eq_effectOf]
  exact commit_next _ _

/-- Everything `exec` can do. -/
theorem exec_cases {i : Instr} {s t : State} (h : exec i s = .next t) :
    (∃ u, effectOf i.op i.mode i.operand s = .ok u ∧ t = finishExecute (phaseAfter i.op) u) ∨
    (∃ r, effectOf i.op i.mode i.operand s = .error r ∧ t = raiseError s r) :=
  executePhase_cases (by rwa [exec_eq_effectOf] at h)

/-- What a completed effect leaves as it was: everything but `acc`, `pc`, the flags, `halted` and the cell STA names. -/
theorem effectOf_ok {o : Opcode} {m : Mode} {v : Word} {s u : State} (h : effectOf o m v s = .ok u) :
    (o ∉ ([.ldi, .lda, .add, .sub, .mul, .div, .and, .or, .xor, .not] : List Opcode) → u.acc = s.acc) ∧
    (o ∉ ([.jmp, .jz, .jnz, .jc, .jnc, .jv, .jnv, .jn, .jnn] : List Opcode) → u.pc = s.pc) ∧
    (o ∉ ([.add, .sub, .mul, .div, .cmp] : List Opcode) → u.flags.c = s.flags.c ∧ u.flags.v = s.flags.v) ∧
    (o ∉ ([.add, .sub, .mul, .div, .cmp, .and, .or, .xor, .not] : List Opcode) → u.flags = s.flags) ∧
    u.halted = (if o = .halt then true else s.halted) ∧
    (if o = .sta then v.toNat < s.mem.size ∧ u.mem = s.mem.put v.toNat s.acc else u.mem = s.mem) ∧
    u = { s with acc := u.acc, pc := u.pc, flags := u.flags, halted := u.halted, mem := u.mem } := by
  cases o
  case nop => cases h; simp
  case halt => cases h; simp [State.withHalted]
  case not =>
    obtain ⟨r, -, hr⟩ := notEffect_ok s
    have h' := hr.symm.trans h
    cases h'
    simp [State.withAcc, State.withFlags]
  case sta =>
    rcases staEffect_cases (m := m) h with ⟨ha, hu⟩ | ⟨-, hu⟩
    · cases hu
      simp [ha, State.withMem]
    · cases hu
  case cmp =>
    rcases cmpEffect_cases h with ⟨b, r, -, -, hu⟩ | ⟨r, -, hu⟩
    · cases hu
      simp [State.withFlags]
    · cases hu
  case ldi | lda =>
    rcases loadEffect_cases h with ⟨w, -, hu⟩ | ⟨r, -, hu⟩
    · cases hu
      simp [State.withAcc]
    · cases hu
  case add | sub | mul | div | and | or | xor =>
    rcases aluEffect_cases h with ⟨b, r, -, -, hu⟩ | ⟨r, -, hu⟩ | ⟨-, -, hu⟩
    · cases hu
      simp [State.withAcc, State.withFlags, AluOp.mask, AluOp.kind]
    · cases hu
    · cases hu
  case jmp =>
    rcases jumpEffect_cases (taken := true) h with ⟨-, t, -, hu⟩ | ⟨-, r, -, hu⟩ | ⟨hf, -⟩
    · cases hu
      simp [State.withPc]
    · cases hu
    · cases hf
  all_goals
    rcases jumpEffect_cases h with ⟨-, t, -, hu⟩ | ⟨-, r, -, hu⟩ | ⟨-, hu⟩
    · cases hu
      simp [State.withPc]
    · cases hu
    · cases hu
      simp

/-- What an effect can raise (60_exceptions.md R190), for a triple with the canonical mode. -/
theorem effectOf_error {o : Opcode} {v : Word} {s : State} {r : Raise}
    (h : effectOf o o.canonicalMode v s = .error r) :
    (0x04 ≤ o.number.toNat ∧ o.number.toNat ≤ 0x0D ∧ s.mem.size ≤ v.toNat ∧
      r = { code := .addressOutOfRange, info := v.setWidth 17 }) ∨
    (o = .div ∧ s.mem.cell v.toNat = some 0x0000 ∧
      r = { code := .arithmeticError, info := s.irAddr.setWidth 17 }) := by
  cases o
  case nop | halt | not => cases h
  case sta =>
    rcases staEffect_cases (m := .direct) h with ⟨-, hu⟩ | ⟨ha, hu⟩
    · cases hu
    · cases hu
      exact .inl ⟨by decide, by decide, ha, rfl⟩
  case cmp =>
    rcases cmpEffect_cases h with ⟨b, r, -, -, hu⟩ | ⟨r, ho, hu⟩
    · cases hu
    · cases hu
      have := operandValue_error ho
      exact .inl ⟨by decide, by decide, this.2⟩
  case lda =>
    rcases loadEffect_cases h with ⟨w, -, hu⟩ | ⟨r, ho, hu⟩
    · cases hu
    · cases hu
      have := operandValue_error ho
      exact .inl ⟨by decide, by decide, this.2⟩
  case ldi =>
    rcases loadEffect_cases h with ⟨w, -, hu⟩ | ⟨r, ho, hu⟩
    · cases hu
    · cases ho
  case add | sub | mul | div | and | or | xor =>
    rcases aluEffect_cases h with ⟨b, r, -, -, hu⟩ | ⟨r, ho, hu⟩ | ⟨hf, ho, hu⟩
    · cases hu
    · cases hu
      have := operandValue_error ho
      exact .inl ⟨by decide, by decide, this.2⟩
    · cases hu
      first
        | exact absurd hf (by decide)
        | (rcases memRead_cases ho with ⟨w, hc, hw⟩ | ⟨-, hw⟩
           · cases hw
             rw [effAddr, toNat_setWidth17] at hc
             exact .inr ⟨rfl, hc, rfl⟩
           · cases hw)
  case jmp =>
    rcases jumpEffect_cases (taken := true) h with ⟨-, t, -, hu⟩ | ⟨-, r, ho, hu⟩ | ⟨hf, -⟩
    · cases hu
    · cases ho
    · cases hf
  all_goals
    rcases jumpEffect_cases h with ⟨-, t, -, hu⟩ | ⟨-, r, ho, hu⟩ | ⟨-, hu⟩
    · cases hu
    · cases ho
    · cases hu

/-- Whatever the mode, the error an effect raises is one of the three runtime errors, never the empty value of the latch. -/
theorem effectOf_error_code {o : Opcode} {m : Mode} {v : Word} {s : State} {r : Raise}
    (h : effectOf o m v s = .error r) : r.code ≠ .none := by
  have ho : ∀ {r}, operandValue m v s = .error r → r.code ≠ .none := fun h => by
    rw [(operandValue_error h).2.2]; exact fun h => nomatch h
  cases o
  case nop | halt | not => cases h
  case sta =>
    rcases staEffect_cases (m := m) h with ⟨-, hu⟩ | ⟨-, hu⟩ <;> cases hu
    exact fun h => nomatch h
  case cmp =>
    rcases cmpEffect_cases h with ⟨_, _, -, -, hu⟩ | ⟨_, h', hu⟩ <;> cases hu
    exact ho h'
  case ldi | lda =>
    rcases loadEffect_cases h with ⟨_, -, hu⟩ | ⟨_, h', hu⟩ <;> cases hu
    exact ho h'
  case add | sub | mul | div | and | or | xor =>
    rcases aluEffect_cases h with ⟨_, _, -, -, hu⟩ | ⟨_, h', hu⟩ | ⟨-, -, hu⟩ <;> cases hu
    · exact ho h'
    · exact fun h => nomatch h
  case jmp =>
    rcases jumpEffect_cases (taken := true) h with ⟨-, _, -, hu⟩ | ⟨-, _, h', hu⟩ | ⟨-, hu⟩ <;> cases hu
    exact ho h'
  all_goals
    rcases jumpEffect_cases h with ⟨-, _, -, hu⟩ | ⟨-, _, h', hu⟩ | ⟨-, hu⟩ <;> cases hu
    exact ho h'

/-- The frame of EXECUTE (R104): a completed phase and its bookkeeping, or the error taken with nothing else written. -/
theorem exec_frame {i : Instr} {s t : State} (h : exec i s = .next t) (hf : s.fault = .none) :
    (t.fault = .none ∧ t.cycles = s.cycles + 1 ∧ t.phase = phaseAfter i.op ∧
      t.halted = (if i.op = .halt then true else s.halted) ∧
      t.history = s.history ++ [snapshotOf .execute t]) ∨
    (t.fault ≠ .none ∧ ∃ r, t = raiseError s r ∧ effectOf i.op i.mode i.operand s = .error r) := by
  rcases exec_cases h with ⟨u, hu, rfl⟩ | ⟨r, hr, rfl⟩
  · obtain ⟨-, -, -, -, h5, -, h7⟩ := effectOf_ok hu
    left
    rw [h7]
    exact ⟨hf, rfl, rfl, h5, rfl⟩
  · exact .inr ⟨effectOf_error_code hr, r, rfl, hr⟩

/-- What EXECUTE does to the memory, the general registers and the buffer: the one cell of STA and nothing else. -/
theorem exec_mem {i : Instr} {s t : State} (h : exec i s = .next t) :
    (t.mem = s.mem ∨ i.op = .sta ∧ i.operand.toNat < s.mem.size ∧ t.mem = s.mem.put i.operand.toNat s.acc) ∧
    t.gpr = s.gpr ∧ t.ir0 = s.ir0 ∧ t.ir1 = s.ir1 ∧ t.irAddr = s.irAddr := by
  rcases exec_cases h with ⟨u, hu, rfl⟩ | ⟨r, -, rfl⟩
  · obtain ⟨-, -, -, -, -, h6, h7⟩ := effectOf_ok hu
    have hm : u.mem = s.mem ∨
        i.op = .sta ∧ i.operand.toNat < s.mem.size ∧ u.mem = s.mem.put i.operand.toNat s.acc := by
      split at h6
      · next ho => exact .inr ⟨ho, h6⟩
      · exact .inl h6
    rw [h7]
    exact ⟨hm, rfl, rfl, rfl, rfl⟩
  · exact ⟨.inl rfl, rfl, rfl, rfl, rfl⟩

/-- The latches of a decoded instruction hold an instruction of the same opcode, mode and operand (10_state.md R33 (e)). -/
theorem instrOfLatches_some {wide : Bool} {t : Triple} {i : Instr} (h : instrOfLatches wide t = some i) :
    Opcode.ofNumber t.op = some i.op ∧ (i.op.arity ≠ 0 → i.mode = t.mode ∧ i.operand = t.operand) := by
  unfold instrOfLatches at h
  cases ho : Opcode.ofNumber t.op with
  | none => rw [ho] at h; cases h
  | some o =>
    rw [ho, Option.map_some] at h
    injection h with h
    split at h
    · next hc =>
      have hv : (t.operand.setWidth 9).setWidth 16 = t.operand := by
        apply BitVec.eq_of_toNat_eq
        simp only [BitVec.toNat_setWidth]
        omega
      subst h
      cases o <;> first | exact ⟨rfl, fun _ => ⟨rfl, hv⟩⟩ | exact ⟨rfl, fun h => absurd rfl h⟩
    · subst h
      cases o <;> first | exact ⟨rfl, fun _ => ⟨rfl, rfl⟩⟩ | exact ⟨rfl, fun h => absurd rfl h⟩

end Sys2Proof.Machine
end

