-- ==== Sys2Proof/Tests/Slice0.lean ====
section
/-! SUPPORT. The model's own tests: well-formedness, the decoder and the encoder on words of the spec, one step of every
instruction, and a witness for the hypotheses of every statement. Expected values come from 95_test_vectors.md (named T…) or
from the opcode table. -/

namespace Sys2Proof.Tests

open Sys2Proof Sys2Proof.Machine

/-! ### Well-formedness (30_encoding.md R70, R71) -/

theorem test_wellFormed_accepts : (Instr.ldaW .direct 0xFFFF).wellFormed ∧ (Instr.ldiS .immediate 0x1FF).wellFormed := by decide
theorem test_wellFormed_refuses_literal_for_address : ¬ (Instr.ldaS .immediate 5).wellFormed := by decide
theorem test_wellFormed_refuses_address_for_literal : ¬ (Instr.ldiS .direct 5).wellFormed := by decide
theorem test_wellFormed_refuses_indirect_jump : ¬ (Instr.jmpW .direct 5).wellFormed := by decide

/-- The `valid` of R70 for a triple, as a test can decide it. -/
def validTriple (t : Triple) : Bool :=
  match Opcode.ofNumber t.op with
  | none => false
  | some o => decide (t.mode = o.canonicalMode ∧ (o.arity = 0 → t.operand = 0))

theorem valid_iff (t : Triple) : t.valid ↔ validTriple t = true := by
  unfold validTriple Triple.valid
  cases Opcode.ofNumber t.op with
  | none => simp
  | some o => simp only [Option.mem_some_iff, exists_eq_left', decide_eq_true_eq]

theorem test_valid_accepts : (Triple.mk 0x03 0xFFFF .immediate).valid := by rw [valid_iff]; decide
theorem test_valid_refuses_unassigned_opcode : ¬ (Triple.mk 0x0F 0 .immediate).valid := by rw [valid_iff]; decide
theorem test_valid_refuses_wrong_mode : ¬ (Triple.mk 0x04 0 .immediate).valid := by rw [valid_iff]; decide
theorem test_valid_refuses_operand_of_arity_zero : ¬ (Triple.mk 0x01 1 .immediate).valid := by rw [valid_iff]; decide

/-! ### Every row's word, from the opcode table and R72, R73 -/

theorem test_decode_nop : decode 0b0000100000000000 0 = .ok .nop := by decide
theorem test_decode_halt : decode 0b0001000000000000 0 = .ok .halt := by decide
theorem test_decode_ldiS : decode 0b0001100010100101 0xABCD = .ok (.ldiS .immediate 0x0A5) := by decide
theorem test_decode_ldiW : decode 0b0001110000000000 0x8001 = .ok (.ldiW .immediate 0x8001) := by decide
theorem test_decode_ldaS : decode 0b0010001100000000 0xABCD = .ok (.ldaS .direct 0x100) := by decide
theorem test_decode_ldaW : decode 0b0010011000000000 0x1234 = .ok (.ldaW .direct 0x1234) := by decide
theorem test_decode_staS : decode 0b0010101111111111 0xABCD = .ok (.staS .direct 0x1FF) := by decide
theorem test_decode_staW : decode 0b0010111000000000 0xFFFF = .ok (.staW .direct 0xFFFF) := by decide
theorem test_decode_addS : decode 0b0011001101011010 0xABCD = .ok (.addS .direct 0x15A) := by decide
theorem test_decode_addW : decode 0b0011011000000000 0x0005 = .ok (.addW .direct 0x0005) := by decide
theorem test_decode_subS : decode 0b0011101000000001 0xABCD = .ok (.subS .direct 0x001) := by decide
theorem test_decode_subW : decode 0b0011111000000000 0x0200 = .ok (.subW .direct 0x0200) := by decide
theorem test_decode_mulS : decode 0b0100001010100101 0xABCD = .ok (.mulS .direct 0x0A5) := by decide
theorem test_decode_mulW : decode 0b0100011000000000 0x8001 = .ok (.mulW .direct 0x8001) := by decide
theorem test_decode_divS : decode 0b0100101100000000 0xABCD = .ok (.divS .direct 0x100) := by decide
theorem test_decode_divW : decode 0b0100111000000000 0x1234 = .ok (.divW .direct 0x1234) := by decide
theorem test_decode_cmpS : decode 0b0101001111111111 0xABCD = .ok (.cmpS .direct 0x1FF) := by decide
theorem test_decode_cmpW : decode 0b0101011000000000 0xFFFF = .ok (.cmpW .direct 0xFFFF) := by decide
theorem test_decode_andS : decode 0b0101101101011010 0xABCD = .ok (.andS .direct 0x15A) := by decide
theorem test_decode_andW : decode 0b0101111000000000 0x0005 = .ok (.andW .direct 0x0005) := by decide
theorem test_decode_orS : decode 0b0110001000000001 0xABCD = .ok (.orS .direct 0x001) := by decide
theorem test_decode_orW : decode 0b0110011000000000 0x0200 = .ok (.orW .direct 0x0200) := by decide
theorem test_decode_xorS : decode 0b0110101010100101 0xABCD = .ok (.xorS .direct 0x0A5) := by decide
theorem test_decode_xorW : decode 0b0110111000000000 0x8001 = .ok (.xorW .direct 0x8001) := by decide
theorem test_decode_not : decode 0b0111000000000000 0 = .ok .not := by decide
theorem test_decode_jmpS : decode 0b1000000100000000 0xABCD = .ok (.jmpS .immediate 0x100) := by decide
theorem test_decode_jmpW : decode 0b1000010000000000 0x1234 = .ok (.jmpW .immediate 0x1234) := by decide
theorem test_decode_jzS : decode 0b1001000111111111 0xABCD = .ok (.jzS .immediate 0x1FF) := by decide
theorem test_decode_jzW : decode 0b1001010000000000 0xFFFF = .ok (.jzW .immediate 0xFFFF) := by decide
theorem test_decode_jnzS : decode 0b1001100101011010 0xABCD = .ok (.jnzS .immediate 0x15A) := by decide
theorem test_decode_jnzW : decode 0b1001110000000000 0x0005 = .ok (.jnzW .immediate 0x0005) := by decide
theorem test_decode_jcS : decode 0b1010000000000001 0xABCD = .ok (.jcS .immediate 0x001) := by decide
theorem test_decode_jcW : decode 0b1010010000000000 0x0200 = .ok (.jcW .immediate 0x0200) := by decide
theorem test_decode_jncS : decode 0b1010100010100101 0xABCD = .ok (.jncS .immediate 0x0A5) := by decide
theorem test_decode_jncW : decode 0b1010110000000000 0x8001 = .ok (.jncW .immediate 0x8001) := by decide
theorem test_decode_jvS : decode 0b1011000100000000 0xABCD = .ok (.jvS .immediate 0x100) := by decide
theorem test_decode_jvW : decode 0b1011010000000000 0x1234 = .ok (.jvW .immediate 0x1234) := by decide
theorem test_decode_jnvS : decode 0b1011100111111111 0xABCD = .ok (.jnvS .immediate 0x1FF) := by decide
theorem test_decode_jnvW : decode 0b1011110000000000 0xFFFF = .ok (.jnvW .immediate 0xFFFF) := by decide
theorem test_decode_jnS : decode 0b1100000101011010 0xABCD = .ok (.jnS .immediate 0x15A) := by decide
theorem test_decode_jnW : decode 0b1100010000000000 0x0005 = .ok (.jnW .immediate 0x0005) := by decide
theorem test_decode_jnnS : decode 0b1100100000000001 0xABCD = .ok (.jnnS .immediate 0x001) := by decide
theorem test_decode_jnnW : decode 0b1100110000000000 0x0200 = .ok (.jnnW .immediate 0x0200) := by decide

/-! ### Words that are refused (T41) -/

theorem test_T41a : decode 0x0000 0x0000 = .error .unassignedOpcode := by decide
theorem test_T41b : decode 0x07FF 0x0000 = .error .unassignedOpcode := by decide
theorem test_T41c : decode 0x0C00 0x0000 = .error .arityZeroFields := by decide
theorem test_T41d : decode 0x0801 0x0000 = .error .arityZeroFields := by decide
theorem test_T41e : decode 0x0A00 0x0000 = .error .arityZeroFields := by decide
theorem test_T41f : decode 0x1001 0x0000 = .error .arityZeroFields := by decide
theorem test_T41g : decode 0x1200 0x0000 = .error .arityZeroFields := by decide
theorem test_T41h : decode 0x1400 0x0000 = .error .arityZeroFields := by decide
theorem test_T41i : decode 0x7001 0x0000 = .error .arityZeroFields := by decide
theorem test_T41j : decode 0x7800 0x0000 = .error .unassignedOpcode := by decide
theorem test_T41k : decode 0x8805 0x0000 = .error .unassignedOpcode := by decide
theorem test_T41l : decode 0xD000 0x0000 = .error .unassignedOpcode := by decide
theorem test_T41m : decode 0xFFFF 0xFFFF = .error .unassignedOpcode := by decide
theorem test_T41n : decode 0x1A05 0x0000 = .error .modeNotCanonical := by decide
theorem test_T41o : decode 0x2005 0x0000 = .error .modeNotCanonical := by decide
theorem test_T41p : decode 0x3005 0x0000 = .error .modeNotCanonical := by decide
theorem test_T41q : decode 0x8205 0x0000 = .error .modeNotCanonical := by decide
theorem test_T41r : decode 0x9A00 0x0000 = .error .modeNotCanonical := by decide
theorem test_T41s : decode 0x2601 0x0200 = .error .wideImm9NotZero := by decide
theorem test_T41t : decode 0x1DFF 0x0000 = .error .wideImm9NotZero := by decide

/-! ### The encoder (T4 to T8, T34 to T38) -/

theorem test_T4 : encodeMnemonic "NOT" 0x4D false = .ok [0x7000] := by decide
theorem test_T6 : encodeMnemonic "LDI" 0x1FF false = .ok [0x19FF] := by decide
theorem test_T7 : encodeMnemonic "LDI" 0x200 false = .ok [0x1C00, 0x0200] := by decide
theorem test_T13 : encodeMnemonic "STA" 0xFFFF false = .ok [0x2E00, 0xFFFF] := by decide
theorem test_T34 : encodeMnemonic "LDA" 5 true = .ok [0x2600, 0x0005] := by decide
theorem test_T36 : encodeMnemonic "LDI" 0x10000 false = .error .encodingOverflow := by decide
theorem test_T37 : encodeMnemonic "LDI" (-1) false = .error .encodingOverflow := by decide
theorem test_T38 : encodeMnemonic "MOV" 1 false = .error .invalidInstruction := by decide

theorem test_instruction_info : instructionInfo "STA" = some (InstructionInfo.mk 0x05 1 [.direct]) := by decide

/-! ### One step of every instruction

`ran w0 w1 s` is what the step of the words `w0 w1`, placed at the pc of `s`, leaves in acc, pc, the flags and the fault
latch. -/

/-- Flags from the four digits ZCVN of the test vectors. -/
def zcvn (z c v n : Bool) : Flags := { z := z, c := c, v := v, n := n }

/-- A machine of 0x1000 cells at the address `pc`. -/
def machine (pc acc : Word) (flags : Flags) (cells : List (Nat × Word)) : State :=
  { State.create { memWords := 0x1000, ngpr := 2 } with
    pc := pc
    acc := acc
    flags := flags
    mem := { size := 0x1000, cells := cells } }

/-- The next state of a step, where there is one. -/
def nextOf : Host.Outcome State Fault Refusal → Option State
  | .next t => some t
  | .fault _ => none
  | .refused _ => none

/-- acc, pc, flags, error code and error information after a step. -/
def ran (w0 w1 : Nat) (s : State) : Option (Word × Word × Flags × ErrorCode × BitVec 17) :=
  (nextOf (step (s.withFetchWord 32 (w0 + 65536 * w1)))).map fun t => (t.acc, t.pc, t.flags, t.fault, t.faultInfo)

/-- One cell after a step. -/
def ranCell (w0 w1 a : Nat) (s : State) : Option Word :=
  (nextOf (step (s.withFetchWord 32 (w0 + 65536 * w1)))).bind fun t => t.mem.cell a

theorem test_T50_ldi : ran 0x1805 0x0000 (machine 0x0010 0x1234 (zcvn true true true true) []) =
    some (0x0005, 0x0011, zcvn true true true true, .none, 0x00000) := by decide
theorem test_T51_ldi_wide : ran 0x1C00 0xFFFF (machine 0x0010 0x0000 (zcvn false false false false) []) =
    some (0xFFFF, 0x0012, zcvn false false false false, .none, 0x00000) := by decide
theorem test_T52_lda : ran 0x2300 0x0000 (machine 0x0000 0x0000 (zcvn false false false false) [(0x100, 0xBEEF)]) =
    some (0xBEEF, 0x0001, zcvn false false false false, .none, 0x00000) := by decide
theorem test_T56_lda_beyond_the_bound : ran 0x2600 0x1000 (machine 0x0000 0x0007 (zcvn false false false false) []) =
    some (0x0007, 0x0002, zcvn false false false false, .addressOutOfRange, 0x01000) := by decide
theorem test_T54_sta : ranCell 0x2E00 0x0200 0x0200 (machine 4 0x00AA (zcvn false false false false) []) = some 0x00AA := by decide
theorem test_T57_sta_last_cell : ranCell 0x2E00 0x0FFF 0x0FFF (machine 0 1 (zcvn false false false false) []) = some 0x0001 := by decide
theorem test_T60_add : ran 0x3300 0x0000 (machine 0x0000 0x0003 (zcvn true true true true) [(0x100, 0x0004)]) =
    some (0x0007, 0x0001, zcvn false false false false, .none, 0x00000) := by decide
theorem test_T42d_add_carry_overflow_zero : ran 0x3600 0x0100 (machine 0x0000 0x8000 (zcvn false false false false) [(0x100, 0x8000)]) =
    some (0x0000, 0x0002, zcvn true true true false, .none, 0x00000) := by decide
theorem test_T63_sub : ran 0x3B00 0x0000 (machine 0x0000 0x0003 (zcvn false false false false) [(0x100, 0x000A)]) =
    some (0xFFF9, 0x0001, zcvn false true false true, .none, 0x00000) := by decide
theorem test_T43d_sub_overflow_and_borrow : ran 0x3E00 0x0100 (machine 0x0000 0x7FFF (zcvn false false false false) [(0x100, 0xFFFF)]) =
    some (0x8000, 0x0002, zcvn false true true true, .none, 0x00000) := by decide
theorem test_T46b_mul_unsigned_overflow : ran 0x4300 0x0000 (machine 0x0000 0xFFFF (zcvn false false false false) [(0x100, 0xFFFF)]) =
    some (0x0001, 0x0001, zcvn false true false false, .none, 0x00000) := by decide
theorem test_T46c_mul_signed_overflow : ran 0x4600 0x0100 (machine 0x0000 0x0002 (zcvn false false false false) [(0x100, 0x4000)]) =
    some (0x8000, 0x0002, zcvn false false true true, .none, 0x00000) := by decide
theorem test_T67_div : ran 0x4B00 0x0000 (machine 0x0000 0x0002 (zcvn false true true false) [(0x100, 0x0007)]) =
    some (0x0000, 0x0001, zcvn true false false false, .none, 0x00000) := by decide
theorem test_T68_div_by_zero : ran 0x4B00 0x0000 (machine 0x0001 0x0007 (zcvn false true false true) []) =
    some (0x0007, 0x0002, zcvn false true false true, .arithmeticError, 0x00001) := by decide
theorem test_T44_cmp : ran 0x5301 0x0000 (machine 0x0000 0x000A (zcvn false false false false) [(0x101, 0x0014)]) =
    some (0x000A, 0x0001, zcvn false true false true, .none, 0x00000) := by decide
theorem test_T70_cmp_signed_overflow : ran 0x5600 0x0101 (machine 0x0000 0x8000 (zcvn false false false false) [(0x101, 0x0001)]) =
    some (0x8000, 0x0002, zcvn false false true false, .none, 0x00000) := by decide
theorem test_T74_and : ran 0x5B00 0x0000 (machine 0x0000 0xF0F0 (zcvn false true true false) [(0x100, 0xFF00)]) =
    some (0xF000, 0x0001, zcvn false true true true, .none, 0x00000) := by decide
theorem test_T75_or : ran 0x6300 0x0000 (machine 0x0000 0x00F0 (zcvn true false false true) [(0x100, 0x0F00)]) =
    some (0x0FF0, 0x0001, zcvn false false false false, .none, 0x00000) := by decide
theorem test_T76_xor : ran 0x6B00 0x0000 (machine 0x0000 0x1234 (zcvn false true false false) [(0x100, 0x1234)]) =
    some (0x0000, 0x0001, zcvn true true false false, .none, 0x00000) := by decide
theorem test_T72_not : ran 0x7000 0x0000 (machine 0x0000 0x00FF (zcvn false true false false) []) =
    some (0xFF00, 0x0001, zcvn false true false true, .none, 0x00000) := by decide
theorem test_T73_not_keeps_overflow : ran 0x7000 0x0000 (machine 0x0000 0xFFFF (zcvn false false true true) []) =
    some (0x0000, 0x0001, zcvn true false true false, .none, 0x00000) := by decide
theorem test_T80_jmp_taken : ran 0x8020 0x0000 (machine 0x0004 0x0055 (zcvn true true true true) []) =
    some (0x0055, 0x0020, zcvn true true true true, .none, 0x00000) := by decide
theorem test_T81_jz_not_taken : ran 0x9020 0x0000 (machine 0x0004 0x0055 (zcvn false true true true) []) =
    some (0x0055, 0x0005, zcvn false true true true, .none, 0x00000) := by decide
theorem test_T81_jz_taken : ran 0x9020 0x0000 (machine 0x0004 0x0055 (zcvn true false false false) []) =
    some (0x0055, 0x0020, zcvn true false false false, .none, 0x00000) := by decide
theorem test_T82_jnz_taken : ran 0x9820 0x0000 (machine 0x0004 0x0055 (zcvn false true true true) []) =
    some (0x0055, 0x0020, zcvn false true true true, .none, 0x00000) := by decide
theorem test_T82_jnz_not_taken : ran 0x9820 0x0000 (machine 0x0004 0x0055 (zcvn true false false false) []) =
    some (0x0055, 0x0005, zcvn true false false false, .none, 0x00000) := by decide
theorem test_T83_jc_not_taken : ran 0xA020 0x0000 (machine 0x0004 0x0055 (zcvn true false true true) []) =
    some (0x0055, 0x0005, zcvn true false true true, .none, 0x00000) := by decide
theorem test_T83_jc_taken : ran 0xA020 0x0000 (machine 0x0004 0x0055 (zcvn false true false false) []) =
    some (0x0055, 0x0020, zcvn false true false false, .none, 0x00000) := by decide
theorem test_T84_jnc_taken : ran 0xA820 0x0000 (machine 0x0004 0x0055 (zcvn true false true true) []) =
    some (0x0055, 0x0020, zcvn true false true true, .none, 0x00000) := by decide
theorem test_T84_jnc_not_taken : ran 0xA820 0x0000 (machine 0x0004 0x0055 (zcvn false true false false) []) =
    some (0x0055, 0x0005, zcvn false true false false, .none, 0x00000) := by decide
theorem test_T85_jv_not_taken : ran 0xB020 0x0000 (machine 0x0004 0x0055 (zcvn true true false true) []) =
    some (0x0055, 0x0005, zcvn true true false true, .none, 0x00000) := by decide
theorem test_T85_jv_taken : ran 0xB020 0x0000 (machine 0x0004 0x0055 (zcvn false false true false) []) =
    some (0x0055, 0x0020, zcvn false false true false, .none, 0x00000) := by decide
theorem test_T86_jnv_taken : ran 0xB820 0x0000 (machine 0x0004 0x0055 (zcvn true true false true) []) =
    some (0x0055, 0x0020, zcvn true true false true, .none, 0x00000) := by decide
theorem test_T86_jnv_not_taken : ran 0xB820 0x0000 (machine 0x0004 0x0055 (zcvn false false true false) []) =
    some (0x0055, 0x0005, zcvn false false true false, .none, 0x00000) := by decide
theorem test_T87_jn_not_taken : ran 0xC020 0x0000 (machine 0x0004 0x0055 (zcvn true true true false) []) =
    some (0x0055, 0x0005, zcvn true true true false, .none, 0x00000) := by decide
theorem test_T87_jn_taken : ran 0xC020 0x0000 (machine 0x0004 0x0055 (zcvn false false false true) []) =
    some (0x0055, 0x0020, zcvn false false false true, .none, 0x00000) := by decide
theorem test_T88_jnn_taken : ran 0xC820 0x0000 (machine 0x0004 0x0055 (zcvn true true true false) []) =
    some (0x0055, 0x0020, zcvn true true true false, .none, 0x00000) := by decide
theorem test_T88_jnn_not_taken : ran 0xC820 0x0000 (machine 0x0004 0x0055 (zcvn false false false true) []) =
    some (0x0055, 0x0005, zcvn false false false true, .none, 0x00000) := by decide
theorem test_T89_jz_wide_not_taken : ran 0x9400 0x0200 (machine 0x0004 0x0000 (zcvn false false false false) []) =
    some (0x0000, 0x0006, zcvn false false false false, .none, 0x00000) := by decide
theorem test_halt : (nextOf (step (State.reset.withFetchWord 16 0x1000))).map
    (fun t => (t.halted, t.phase, t.pc, t.cycles, t.history.length)) = some (true, .halted, 1, 1, 3) := by decide
theorem test_nop : (nextOf (step (State.reset.withFetchWord 16 0x0800))).map
    (fun t => (t.halted, t.phase, t.pc, t.cycles, t.history.length)) = some (false, .fetch, 1, 1, 3) := by decide
theorem test_decodeTableWord_wide : decodeTableWord 32 0x12342600 = some (.ldaW .direct 0x1234) := by decide

/-! ### One phase at a time (T92 to T105) -/

/-- A machine in its first FETCH with the two words at the address 0. -/
def fetching (w0 w1 : Word) : State :=
  machine 0 5 (zcvn false false false false) [(0, w0), (1, w1)]

/-- The same after the FETCH of the instruction of `len` words. -/
def decoding (w0 w1 : Word) (len : Nat) : State := afterFetch (fetching w0 w1) w0 (if len = 2 then w1 else 0) len

/-- The same after its DECODE. -/
def executing (w0 w1 : Word) (len : Nat) (t : Triple) : State := afterDecode (decoding w0 w1 len) t

theorem test_fetch_one_word : step (fetching 0x1805 0x1000) = .next (decoding 0x1805 0x1000 1) := by rfl
theorem test_fetch_two_words : step (fetching 0x2600 0x0200) = .next (decoding 0x2600 0x0200 2) := by rfl
theorem test_decode_phase : step (decoding 0x2600 0x0200 2) =
    .next (executing 0x2600 0x0200 2 (Triple.mk 0x04 0x0200 .direct)) := by rfl
theorem test_T99_decode_error : step (decoding 0x3005 0x1000 1) =
    .next (afterError (decoding 0x3005 0x1000 1) .decodeError 0x03005) := by rfl
theorem test_fetch_beyond_the_bound : step (machine 0x1000 0 (zcvn false false false false) []) =
    .next (afterError (machine 0x1000 0 (zcvn false false false false) []) .addressOutOfRange 0x01000) := by rfl

/-- A machine of the whole address space, about to fetch at its last cell. -/
def atTop (w0 : Word) : State :=
  { State.create { memWords := 0x10000, ngpr := 0 } with pc := 0xFFFF, mem := { size := 0x10000, cells := [(0xFFFF, w0)] } }

theorem test_T104_pc_wraps : step (atTop 0x5203) = .next (afterFetch (atTop 0x5203) 0x5203 0 1) := by rfl
theorem test_T105_second_word_does_not_wrap : step (atTop 0x2600) =
    .next (afterError (atTop 0x2600) .addressOutOfRange 0x10000) := by rfl
theorem test_T104_pc_is_zero : (afterFetch (atTop 0x5203) 0x5203 0 1).pc = 0 := by decide

/-! ### The host's operations (T110 to T114) -/

theorem test_T114_load_grows :
    (hostLoad [1, 2, 3, 4, 5] (State.create (Config.Params.mk 4 0))).map (fun s => (s.mem.size, s.mem.cell 4, s.mem.cell 5)) =
      some (5, some 5, none) := by decide
theorem test_T114_load_keeps_the_rest :
    (hostLoad [1, 2, 3, 4, 5] (machine 0 0 (zcvn false false false false) [(7, 9)])).map
      (fun s => (s.mem.size, s.mem.cell 0, s.mem.cell 7)) = some (0x1000, some 1, some 9) := by decide
theorem test_T113_clear : (hostClearMemory (fetching 1 2)).mem.cell 1 = some 0 := by decide
theorem test_T112_reset_clears_the_latch : (hostReset (afterError (fetching 1 2) .decodeError 5)).fault = .none := by decide
theorem test_write_of_zero_keeps_the_canonical_form :
    (hostWrite 1 0 (fetching 1 2)).map (fun s => s.mem.cells) = some [(0, 1)] := by decide

/-! ### Witnesses: the hypotheses of the statements are met -/

theorem witness_DecodeOfEncodeIsTheRow :
    (Instr.jnnS .immediate 0x1FF).wellFormed ∧ (Instr.staW .direct 0x0000).wellFormed ∧ Instr.not.wellFormed := by decide

theorem witness_RoundTripLaw :
    (Triple.mk 0x03 0x01FF .immediate).valid ∧ (Triple.mk 0x03 0x0200 .immediate).valid ∧ (Triple.mk 0x0E 0 .immediate).valid ∧
    decodeTriple 0x19FF 0 = .ok (Triple.mk 0x03 0x01FF .immediate) ∧
    decodeTriple 0x1C00 0x01FF = .ok (Triple.mk 0x03 0x01FF .immediate) ∧
    (0x1C00 : Word).getLsbD 10 = true ∧ (0x19FF : Word).getLsbD 10 = false := by
  simp only [valid_iff]
  decide

theorem witness_WideEncodingOfSmallOperand :
    (0x1FF : Nat) ≤ 0x1FF ∧
    (0x19 : BitVec 5) ∉ ([0x00, 0x0F, 0x11, 0x1A, 0x1B, 0x1C, 0x1D, 0x1E, 0x1F, 0x01, 0x02, 0x0E] : List (BitVec 5)) := by
  decide

/-- The three clauses of every statement about a memory operand, in the short and the wide row: a cell with a word, a cell
with zero (the divisor of DIV), no cell. -/
theorem witness_OnMemoryWord :
    (fetching 0x4A01 0x0003).mem.cell ((1 : BitVec 9).setWidth 16).toNat = some 3 ∧
    (fetching 0x4A01 0x0003).mem.cell (0x0FFF : Word).toNat = some 0 ∧
    (fetching 0x4A01 0x0003).mem.size ≤ (0x1000 : Word).toNat ∧
    (State.create (Config.Params.mk 8 0)).mem.size ≤ ((8 : BitVec 9).setWidth 16).toNat := by decide

theorem witness_StaStoresTheAccumulator :
    (0x0FFF : Word).toNat < (fetching 0x2E00 0x0FFF).mem.size ∧ (fetching 0x2E00 0x1000).mem.size ≤ (0x1000 : Word).toNat := by
  decide

theorem witness_NotTwice : ∃ t u, exec .not (fetching 0x7000 0x7000) = .next t ∧ exec .not t = .next u := ⟨_, _, rfl, rfl⟩

theorem witness_EncodedAlone :
    (0x0800 : Word).extractLsb' 11 5 = (0b00001 : BitVec 5) ∧ (0x17FF : Word).extractLsb' 11 5 = (0b00010 : BitVec 5) ∧
    (0x7000 : Word).extractLsb' 11 5 = (0b01110 : BitVec 5) := by decide

theorem witness_ExecuteWritesOnlyItsPorts :
    (∃ t, exec (.staS .direct 1) (fetching 0x2A01 0x1000) = .next t) ∧ (Instr.staS .direct 1).op = .sta ∧
    (∃ t, exec .nop (fetching 0x0800 0x1000) = .next t) ∧
    Instr.nop.op ∉ ([.ldi, .lda, .add, .sub, .mul, .div, .and, .or, .xor, .not] : List Opcode) ∧
    Instr.nop.op ∉ ([.jmp, .jz, .jnz, .jc, .jnc, .jv, .jnv, .jn, .jnn] : List Opcode) ∧
    Instr.nop.op ∉ ([.add, .sub, .mul, .div, .cmp, .and, .or, .xor, .not] : List Opcode) ∧
    Instr.nop.op ≠ .halt :=
  ⟨⟨_, rfl⟩, rfl, ⟨_, rfl⟩, by decide, by decide, by decide, by decide⟩

theorem witness_HaltStopsTheMachine :
    running (executing 0x1000 0x1000 1 (Triple.mk 0x02 0 .immediate)) ∧
    (executing 0x1000 0x1000 1 (Triple.mk 0x02 0 .immediate)).phase = .execute ∧
    latchTriple (executing 0x1000 0x1000 1 (Triple.mk 0x02 0 .immediate)) = Instr.halt.triple ∧
    ∃ t, exec .halt (executing 0x1000 0x1000 1 (Triple.mk 0x02 0 .immediate)) = .next t :=
  ⟨by decide, rfl, rfl, _, rfl⟩

theorem witness_DivDivides : (0x0007 : Word) ≠ 0 ∧ (fetching 0x4A01 0x0007).mem.cell (1 : Word).toNat = some 7 := by decide

theorem witness_ResultsAgree : aluResult .div 7 2 = some 3 := by decide

theorem witness_ThreeSteps_short :
    running (fetching 0x1805 0x1000) ∧ (fetching 0x1805 0x1000).phase = .fetch ∧
    (fetching 0x1805 0x1000).mem.cell (fetching 0x1805 0x1000).pc.toNat = some 0x1805 ∧
    (0x1805 : Word).getLsbD 10 = false ∧ decode 0x1805 0 = .ok (.ldiS .immediate 5) := by decide

theorem witness_ThreeSteps_wide :
    running (fetching 0x2600 0x0200) ∧ (fetching 0x2600 0x0200).phase = .fetch ∧
    (fetching 0x2600 0x0200).mem.cell (fetching 0x2600 0x0200).pc.toNat = some 0x2600 ∧
    (0x2600 : Word).getLsbD 10 = true ∧
    (fetching 0x2600 0x0200).mem.cell ((fetching 0x2600 0x0200).pc.toNat + 1) = some 0x0200 ∧
    decode 0x2600 0x0200 = .ok (.ldaW .direct 0x0200) := by decide

theorem witness_InstructionInFlight :
    (running (decoding 0x2600 0x0200 2) ∧ (decoding 0x2600 0x0200 2).phase = .decode ∧
      ∃ t, step (decoding 0x2600 0x0200 2) = .next t) ∧
    running (executing 0x2600 0x0200 2 (Triple.mk 0x04 0x0200 .direct)) ∧
    (executing 0x2600 0x0200 2 (Triple.mk 0x04 0x0200 .direct)).phase = .execute ∧
    decode 0x2600 0x0200 = .ok (.ldaW .direct 0x0200) ∧
    latchTriple (executing 0x2600 0x0200 2 (Triple.mk 0x04 0x0200 .direct)) = (Instr.ldaW .direct 0x0200).triple :=
  ⟨⟨by decide, rfl, _, rfl⟩, by decide, rfl, by decide, rfl⟩

theorem witness_FetchReadsWords :
    (running (machine 0x1000 0 (zcvn false false false false) []) ∧
      (machine 0x1000 0 (zcvn false false false false) []).mem.size ≤ (0x1000 : Word).toNat) ∧
    ((fetching 0x1805 0x1000).mem.cell 0 = some 0x1805 ∧ (0x1805 : Word).getLsbD 10 = false) ∧
    ((fetching 0x2600 0x0200).mem.cell 0 = some 0x2600 ∧ (0x2600 : Word).getLsbD 10 = true ∧
      (fetching 0x2600 0x0200).mem.cell 1 = some 0x0200) ∧
    (running (machine 0x0FFF 0 (zcvn false false false false) [(0x0FFF, 0x2600)]) ∧
      (machine 0x0FFF 0 (zcvn false false false false) [(0x0FFF, 0x2600)]).mem.cell 0x0FFF = some 0x2600 ∧
      (machine 0x0FFF 0 (zcvn false false false false) [(0x0FFF, 0x2600)]).mem.size ≤ 0x0FFF + 1) ∧
    (running (atTop 0x2600) ∧ (atTop 0x2600).phase = .fetch ∧ (atTop 0x2600).pc = 0xFFFF ∧
      (atTop 0x2600).mem.cell 0xFFFF = some 0x2600 ∧ (atTop 0x2600).mem.size ≤ 65536) := by decide

theorem refused_word_has_no_triple (w1 : Word) : ∀ t, decodeTriple 0x3005 w1 ≠ .ok t := fun _ h => nomatch h

theorem witness_DecodeWritesTheLatches :
    (running (decoding 0x2600 0x0200 2) ∧ (decoding 0x2600 0x0200 2).phase = .decode ∧
      decodeTriple (decoding 0x2600 0x0200 2).ir0 (decoding 0x2600 0x0200 2).ir1 = .ok (Triple.mk 0x04 0x0200 .direct)) ∧
    running (decoding 0x3005 0x1000 1) ∧ (decoding 0x3005 0x1000 1).phase = .decode ∧
    ∀ t, decodeTriple (decoding 0x3005 0x1000 1).ir0 (decoding 0x3005 0x1000 1).ir1 ≠ .ok t :=
  ⟨by decide, by decide, rfl, refused_word_has_no_triple _⟩

/-- A machine that has run HALT. -/
def haltedMachine : State :=
  { fetching 0x1000 0x1000 with halted := true, phase := .halted, pc := 1, cycles := 1 }

/-- A machine that has failed in DECODE. -/
def faultedMachine : State := afterError (decoding 0x3005 0x1000 1) .decodeError 0x03005

/-- Every row of the transition table, with the next state it asks for. -/
theorem witness_PhaseTransitions :
    (running (fetching 0x1000 0x1000) ∧ (fetching 0x1000 0x1000).phase = .fetch ∧
      ∃ t, step (fetching 0x1000 0x1000) = .next t ∧ t.fault = .none) ∧
    (running (decoding 0x1000 0x1000 1) ∧ (decoding 0x1000 0x1000 1).phase = .decode ∧
      ∃ t, step (decoding 0x1000 0x1000 1) = .next t ∧ t.fault = .none) ∧
    (running (executing 0x1000 0x1000 1 (Triple.mk 0x02 0 .immediate)) ∧
      ∃ t, step (executing 0x1000 0x1000 1 (Triple.mk 0x02 0 .immediate)) = .next t ∧ t.fault = .none ∧ t.halted = true) ∧
    (running (executing 0x0800 0x1000 1 (Triple.mk 0x01 0 .immediate)) ∧
      ∃ t, step (executing 0x0800 0x1000 1 (Triple.mk 0x01 0 .immediate)) = .next t ∧ t.fault = .none ∧ t.phase = .fetch) ∧
    (∃ t, step (decoding 0x3005 0x1000 1) = .next t ∧ t.fault ≠ .none) ∧
    (haltedMachine.phase = .halted ∧ ¬ running haltedMachine ∧ ∃ t, step haltedMachine = .next t) :=
  ⟨⟨by decide, rfl, _, rfl, rfl⟩, ⟨by decide, rfl, _, rfl, rfl⟩, ⟨by decide, _, rfl, rfl, rfl⟩,
    ⟨by decide, _, rfl, rfl, rfl⟩, ⟨_, rfl, by decide⟩, rfl, by decide, _, rfl⟩

theorem witness_StepOnceHalted : haltedMachine.halted = true ∧ haltedMachine.fault = .none := by decide

theorem witness_StepOnceFaulted :
    faultedMachine.fault ≠ .none ∧ (∃ t, hostLoad [0x1000] faultedMachine = some t) ∧
    (∃ t, hostWrite 0 0x1000 faultedMachine = some t) :=
  ⟨by decide, ⟨_, rfl⟩, _, rfl⟩

theorem witness_FailingPhase :
    running (decoding 0x3005 0x1000 1) ∧ ∃ t, step (decoding 0x3005 0x1000 1) = .next t ∧ t.fault ≠ .none :=
  ⟨by decide, _, rfl, by decide⟩

/-- The invariants hold in FETCH, DECODE and EXECUTE states, in a halted and in a faulted one. -/
theorem witness_Inv_fetch : Inv (fetching 0x4A01 0x1000) :=
  ⟨by decide, by decide, by decide, by decide, by decide, by decide, fun _ hg => List.eq_of_mem_replicate hg⟩
theorem witness_Inv_decode : Inv (decoding 0x3005 0x1000 1) :=
  ⟨by decide, by decide, by decide, by decide, by decide, by decide, fun _ hg => List.eq_of_mem_replicate hg⟩
theorem witness_Inv_execute : Inv (executing 0x2E00 0x0200 2 (Triple.mk 0x05 0x0200 .direct)) :=
  ⟨by decide, by decide, by decide, by decide, by decide, by decide, fun _ hg => List.eq_of_mem_replicate hg⟩
theorem witness_Inv_halted : Inv haltedMachine :=
  ⟨by decide, by decide, by decide, by decide, by decide, by decide, fun _ hg => List.eq_of_mem_replicate hg⟩
theorem witness_Inv_faulted : Inv faultedMachine :=
  ⟨by decide, by decide, by decide, by decide, by decide, by decide, fun _ hg => List.eq_of_mem_replicate hg⟩

/-- The five causes of a runtime error, each in a state that has the invariants and is running. -/
theorem witness_ErrorCause_first_word :
    Inv (machine 0x1000 0 (zcvn false false false false) []) ∧ running (machine 0x1000 0 (zcvn false false false false) []) ∧
    ErrorCause (machine 0x1000 0 (zcvn false false false false) []) .addressOutOfRange 0x01000 :=
  ⟨⟨by decide, by decide, by decide, by decide, by decide, by decide, fun _ hg => List.eq_of_mem_replicate hg⟩, by decide, .inl (by decide)⟩

theorem witness_ErrorCause_second_word :
    Inv (atTop 0x2600) ∧ running (atTop 0x2600) ∧ ErrorCause (atTop 0x2600) .addressOutOfRange 0x10000 :=
  ⟨⟨by decide, by decide, by decide, by decide, by decide, by decide, fun _ hg => List.eq_of_mem_replicate hg⟩, by decide,
    .inr (.inl ⟨rfl, rfl, rfl, by decide, 0x2600, by decide, by decide⟩)⟩

theorem witness_ErrorCause_decode :
    Inv (decoding 0x3005 0x1000 1) ∧ running (decoding 0x3005 0x1000 1) ∧ ErrorCause (decoding 0x3005 0x1000 1) .decodeError 0x03005 :=
  ⟨witness_Inv_decode, by decide, .inr (.inr (.inl ⟨rfl, rfl, refused_word_has_no_triple _, rfl⟩))⟩

theorem witness_ErrorCause_operand :
    Inv (executing 0x6E00 0x1000 2 (Triple.mk 0x0D 0x1000 .direct)) ∧
    running (executing 0x6E00 0x1000 2 (Triple.mk 0x0D 0x1000 .direct)) ∧
    ErrorCause (executing 0x6E00 0x1000 2 (Triple.mk 0x0D 0x1000 .direct)) .addressOutOfRange 0x01000 :=
  ⟨⟨by decide, by decide, by decide, by decide, by decide, by decide, fun _ hg => List.eq_of_mem_replicate hg⟩, by decide,
    .inr (.inr (.inr (.inl (by decide))))⟩

theorem witness_ErrorCause_divide :
    Inv (executing 0x4E00 0x0FFF 2 (Triple.mk 0x09 0x0FFF .direct)) ∧
    running (executing 0x4E00 0x0FFF 2 (Triple.mk 0x09 0x0FFF .direct)) ∧
    ErrorCause (executing 0x4E00 0x0FFF 2 (Triple.mk 0x09 0x0FFF .direct)) .arithmeticError 0x00000 :=
  ⟨⟨by decide, by decide, by decide, by decide, by decide, by decide, fun _ hg => List.eq_of_mem_replicate hg⟩, by decide,
    .inr (.inr (.inr (.inr (by decide))))⟩

/-- For the statements about every next state: one in each phase, completed and failed. -/
theorem witness_EveryStep :
    (∃ t, step (fetching 0x4A01 0x1000) = .next t ∧ t.fault = .none) ∧
    (∃ t, step (decoding 0x4A01 0x1000 1) = .next t ∧ t.fault = .none) ∧
    (∃ t, step (executing 0x2E00 0x0200 2 (Triple.mk 0x05 0x0200 .direct)) = .next t ∧ t.fault = .none) ∧
    (∃ t, step (executing 0x4E00 0x0FFF 2 (Triple.mk 0x09 0x0FFF .direct)) = .next t ∧ t.fault ≠ .none) ∧
    (∃ t, step haltedMachine = .next t) ∧ (∃ t, step faultedMachine = .next t) :=
  ⟨⟨_, rfl, rfl⟩, ⟨_, rfl, rfl⟩, ⟨_, rfl, rfl⟩, ⟨_, rfl, by decide⟩, ⟨_, rfl⟩, _, rfl⟩

theorem witness_EveryStepKeepsTheInvariants :
    (Inv (fetching 0x4A01 0x1000) ∧ ∃ t, step (fetching 0x4A01 0x1000) = .next t) ∧
    (Inv (decoding 0x3005 0x1000 1) ∧ ∃ t, step (decoding 0x3005 0x1000 1) = .next t) ∧
    (Inv (executing 0x2E00 0x0200 2 (Triple.mk 0x05 0x0200 .direct)) ∧
      ∃ t, step (executing 0x2E00 0x0200 2 (Triple.mk 0x05 0x0200 .direct)) = .next t) ∧
    (Inv haltedMachine ∧ ∃ t, step haltedMachine = .next t) ∧ (Inv faultedMachine ∧ ∃ t, step faultedMachine = .next t) :=
  ⟨⟨witness_Inv_fetch, _, rfl⟩, ⟨witness_Inv_decode, _, rfl⟩, ⟨witness_Inv_execute, _, rfl⟩, ⟨witness_Inv_halted, _, rfl⟩,
    witness_Inv_faulted, _, rfl⟩

theorem witness_HostOperations :
    Inv (fetching 1 2) ∧ (∃ t, hostLoad [0x1805, 0x1000] (fetching 1 2) = some t) ∧ (∃ t, hostWrite 0x0FFF 3 (fetching 1 2) = some t) :=
  ⟨⟨by decide, by decide, by decide, by decide, by decide, by decide, fun _ hg => List.eq_of_mem_replicate hg⟩, ⟨_, rfl⟩, _, rfl⟩

theorem witness_StoreIsSeenByTheNextFetch :
    (Instr.staW .direct 2).op = .sta ∧ running (executing 0x2E00 0x0002 2 (Triple.mk 0x05 0x0002 .direct)) ∧
    (Instr.staW .direct 2).operand = (executing 0x2E00 0x0002 2 (Triple.mk 0x05 0x0002 .direct)).pc ∧
    ∃ t u, exec (.staW .direct 2) (executing 0x2E00 0x0002 2 (Triple.mk 0x05 0x0002 .direct)) = .next t ∧ t.fault = .none ∧
      step t = .next u ∧ u.fault = .none :=
  ⟨rfl, by decide, by decide, _, _, rfl, rfl, rfl, rfl⟩

theorem witness_RunsEnd :
    Inv (fetching 0x4A01 0x1000) ∧
    ∃ t o, step (fetching 0x4A01 0x1000) = .next t ∧ stepOutput (fetching 0x4A01 0x1000) = some o :=
  ⟨witness_Inv_fetch, _, _, rfl, rfl⟩

theorem witness_MemWrite :
    (fetching 1 2).mem.size ≤ (0x1000 : Word).toNat ∧ (0x0FFF : Word).toNat < (fetching 1 2).mem.size := by decide

theorem witness_HostLoad :
    65536 < (List.replicate 65537 (0 : Word)).length ∧ ([1, 2] : List Word).length ≤ 65536 ∧ ([1, 2] : List Word)[1]? = some 2 := by
  refine ⟨?_, by decide, by decide⟩
  rw [List.length_replicate]
  omega

theorem witness_HostWrite : (fetching 1 2).mem.size ≤ 0x1000 ∧ 0x0FFF < (fetching 1 2).mem.size := by decide

theorem witness_NewMachine : (0 : Nat) < (Config.Params.mk 8 2).memWords ∧ (0 : Word) ∈ (State.create (Config.Params.mk 8 2)).gpr := by
  decide

theorem witness_PlacedWord :
    (fetching 1 2).pc.toNat + 1 < 65536 ∧ decodeTableWord 16 0x1C00 = some (.ldiW .immediate 0) := by decide

theorem witness_params_valid : (Config.Params.mk 1 0).valid ∧ (Config.Params.mk 65536 16).valid := by decide

theorem witness_TraceInv : TraceInv (fetching 1 2) ∧ ∃ t, step (fetching 1 2) = .next t :=
  ⟨⟨rfl, by simp [fetching, machine, State.create], by decide⟩, _, rfl⟩

end Sys2Proof.Tests
end

section
/-! SUPPORT. What the host's operations and one step can do, each said once; and what they keep. -/

namespace Sys2Proof.Machine

open Sys2Proof

/-! ### The host's operations -/

theorem hostLoad_some {words : List Word} {s t : State} (h : hostLoad words s = some t) :
    Config.loadBase + words.length ≤ 65536 ∧
    t = s.withMem ((s.mem.grow (Config.loadBase + words.length)).putWords Config.loadBase words) := by
  unfold hostLoad at h
  split at h
  · cases h
  · cases h
    exact ⟨by omega, rfl⟩

theorem hostWrite_some {a : Nat} {v : Word} {s t : State} (h : hostWrite a v s = some t) :
    a < s.mem.size ∧ t = s.withMem (s.mem.put a v) := by
  unfold hostWrite at h
  split at h
  · next ha =>
    cases h
    exact ⟨ha, rfl⟩
  · cases h

/-- A load changes the memory and nothing else (20_memory.md R66). -/
theorem hostLoad_eq_withMem {words : List Word} {s t : State} (h : hostLoad words s = some t) :
    ∃ m, t = s.withMem m :=
  ⟨_, (hostLoad_some h).2⟩

/-- A host write changes the memory and nothing else (20_memory.md R68). -/
theorem hostWrite_eq_withMem {a : Nat} {v : Word} {s t : State} (h : hostWrite a v s = some t) :
    ∃ m, t = s.withMem m :=
  ⟨_, (hostWrite_some h).2⟩

/-- `reset()` gives as many general registers as there were, each 0x0000 (70_reset_and_hazards.md R220). -/
theorem hostReset_gpr (s : State) : (hostReset s).gpr = List.replicate s.gpr.length 0x0000 :=
  List.map_const' ..

/-- A cell below the bound of a new machine's memory reads 0x0000 (20_memory.md R65). -/
theorem create_cell {p : Config.Params} {a : Nat} (h : a < p.memWords) :
    (State.create p).mem.cell a = some 0x0000 :=
  cell_eq_some.mpr ⟨h, rfl⟩

/-! ### A completed effect -/

/-- The elements no effect of an instruction writes (R104): the frame and the phases before it write them. -/
theorem effectOf_keeps {o : Opcode} {m : Mode} {v : Word} {s u : State} (h : effectOf o m v s = .ok u) :
    u.gpr = s.gpr ∧ u.cycles = s.cycles ∧ u.fault = s.fault ∧
    u.ir0 = s.ir0 ∧ u.ir1 = s.ir1 ∧ u.irAddr = s.irAddr ∧
    u.dOp = s.dOp ∧ u.dMode = s.dMode ∧ u.dOperand = s.dOperand := by
  obtain ⟨-, -, -, -, -, -, hu⟩ := effectOf_ok h
  rw [hu]
  simp only [and_self]

theorem effectOf_halted {o : Opcode} {m : Mode} {v : Word} {s u : State} (h : effectOf o m v s = .ok u) :
    u.halted = (if o = .halt then true else s.halted) := by
  obtain ⟨-, -, -, -, hh, -, -⟩ := effectOf_ok h
  exact hh

/-- The memory after a completed effect: as before, or STA's one cell written below the bound. -/
theorem effectOf_mem {o : Opcode} {m : Mode} {v : Word} {s u : State} (h : effectOf o m v s = .ok u) :
    (o ≠ .sta ∧ u.mem = s.mem) ∨ (o = .sta ∧ v.toNat < s.mem.size ∧ u.mem = s.mem.put v.toNat s.acc) := by
  obtain ⟨-, -, -, -, -, hm, -⟩ := effectOf_ok h
  split at hm
  · next ho => exact .inr ⟨ho, hm⟩
  · next ho => exact .inl ⟨ho, hm⟩

theorem effectOf_mem_wf {o : Opcode} {m : Mode} {v : Word} {s u : State} (h : effectOf o m v s = .ok u)
    (hs : s.mem.wf) : u.mem.wf := by
  obtain ⟨-, hm⟩ | ⟨-, hv, hm⟩ := effectOf_mem h <;> rw [hm]
  · exact hs
  · exact put_wf hs hv _

theorem phaseAfter_eq_halted {o : Opcode} : phaseAfter o = .halted ↔ o = .halt := by
  unfold phaseAfter
  split <;> simp [*]

/-- EXECUTE leads to FETCH or to HALTED, so that no instruction is in flight after it (40_fsm.md R100). -/
theorem phaseAfter_not_in_flight (o : Opcode) : phaseAfter o ≠ .decode ∧ phaseAfter o ≠ .execute := by
  unfold phaseAfter
  split <;> decide

/-- The opcode number of HALT (30_encoding.md R71, D2). -/
theorem ofNumber_eq_halt {n : BitVec 5} : Opcode.ofNumber n = some .halt ↔ n = 0x02 := by
  decide +revert

theorem instrOfLatches_op {wide : Bool} {d : Triple} {i : Instr} (h : instrOfLatches wide d = some i) :
    Opcode.ofNumber d.op = some i.op :=
  (instrOfLatches_some h).1

/-- The latches hold HALT exactly when the opcode latch is its number. -/
theorem op_eq_halt_iff_latch {s : State} {i : Instr}
    (h : instrOfLatches (wideBit s.ir0) (latchTriple s) = some i) : i.op = .halt ↔ s.dOp = 0x02 := by
  rw [← ofNumber_eq_halt, show Opcode.ofNumber s.dOp = some i.op from instrOfLatches_op h, Option.some.injEq]

/-! ### One step -/

/-- The phase the state names raises `r` (60_exceptions.md R190). -/
inductive PhaseRaises (s : State) (r : Raise) : Prop
  | fetch (hp : s.phase = .fetch) (h : doFetch s = .error r)
  | decode (hp : s.phase = .decode) (h : doDecode s = .error r)
  | execute (i : Instr) (hp : s.phase = .execute) (hi : instrOfLatches (wideBit s.ir0) (latchTriple s) = some i)
      (h : effectOf i.op i.mode i.operand s = .error r)

theorem PhaseRaises.code_ne_none {s : State} {r : Raise} (h : PhaseRaises s r) : r.code ≠ .none := by
  cases h with
  | fetch _ h =>
    obtain ⟨-, hr⟩ | ⟨_, -, -, hr⟩ | ⟨_, -, -, -, hr⟩ | ⟨_, _, -, -, -, hr⟩ := doFetch_cases h <;> cases hr <;>
      exact nofun
  | decode _ h =>
    obtain ⟨_, -, hr⟩ | ⟨_, -, hr⟩ := doDecode_cases h <;> cases hr
    exact nofun
  | execute _ _ _ h => exact effectOf_error_code h

/-- The EXECUTE of HALT raises nothing (46_system.md R185). -/
theorem PhaseRaises.not_halt {s : State} {r : Raise} (h : PhaseRaises s r) :
    ¬ (s.phase = .execute ∧ s.dOp = 0x02) := by
  rintro ⟨hp, hd⟩
  cases h with
  | fetch hp' _ | decode hp' _ => simp [hp] at hp'
  | execute i _ hi h =>
    rw [(op_eq_halt_iff_latch hi).mpr hd] at h
    cases h

/-- The next state of a step, with what brought it about: a no-op (40_fsm.md R108, R109), a runtime error taken
(60_exceptions.md R193), or one completed phase (R102, R103, R104). -/
inductive StepsTo (s : State) : State → Prop
  | stays (h : ¬ running s ∨ s.phase = .halted) : StepsTo s s
  | raises (r : Raise) (hr : running s) (h : PhaseRaises s r) : StepsTo s (raiseError s r)
  | fetches (w0 w1 : Word) (hr : running s) (hp : s.phase = .fetch) (h0 : s.mem.cell s.pc.toNat = some w0)
      (h1 : if wideBit w0 then s.mem.cell (s.pc.toNat + 1) = some w1 else w1 = 0x0000) :
      StepsTo s (fetched s w0 w1 (wordLength w0))
  | decodes (d : Triple) (hr : running s) (hp : s.phase = .decode) (h : decodeTriple s.ir0 s.ir1 = .ok d) :
      StepsTo s (decoded s d)
  | executes (i : Instr) (u : State) (hr : running s) (hp : s.phase = .execute)
      (hi : instrOfLatches (wideBit s.ir0) (latchTriple s) = some i) (h : effectOf i.op i.mode i.operand s = .ok u) :
      StepsTo s (finishExecute (phaseAfter i.op) u)

theorem commit_eq_next {s t : State} {e : Except Raise State} (h : commit s e = .next t) :
    e = .ok t ∨ ∃ r, e = .error r ∧ t = raiseError s r := by
  cases e with
  | ok u => cases h; exact .inl rfl
  | error r => cases h; exact .inr ⟨r, rfl, rfl⟩

theorem stepsTo_of_fetch {s t : State} (hr : running s) (hp : s.phase = .fetch)
    (h : commit s (doFetch s) = .next t) : StepsTo s t := by
  obtain hok | ⟨r, herr, rfl⟩ := commit_eq_next h
  · obtain ⟨-, hu⟩ | ⟨w0, h0, hw, hu⟩ | ⟨_, -, -, -, hu⟩ | ⟨w0, w1, h0, hw, h1, hu⟩ := doFetch_cases hok <;> cases hu
    · simpa [wordLength, hw] using StepsTo.fetches w0 0x0000 hr hp h0 (by simp [hw])
    · simpa [wordLength, hw] using StepsTo.fetches w0 w1 hr hp h0 (by simp [hw, h1])
  · exact .raises r hr (.fetch hp herr)

theorem stepsTo_of_decode {s t : State} (hr : running s) (hp : s.phase = .decode)
    (h : commit s (doDecode s) = .next t) : StepsTo s t := by
  obtain hok | ⟨r, herr, rfl⟩ := commit_eq_next h
  · obtain ⟨d, hd, hu⟩ | ⟨_, -, hu⟩ := doDecode_cases hok <;> cases hu
    exact .decodes d hr hp hd
  · exact .raises r hr (.decode hp herr)

/-- Every next state of `step()` comes about in one of the ways of `StepsTo` (40_fsm.md R101). -/
theorem stepsTo_of_step {s t : State} (h : step s = .next t) : StepsTo s t := by
  obtain ⟨hr, rfl⟩ | ⟨hr, hp, h⟩ | ⟨hr, hp, h⟩ | ⟨hr, hp, i, hi, h⟩ | ⟨-, hp, rfl⟩ := step_cases h
  · exact .stays (.inl hr)
  · exact stepsTo_of_fetch hr hp h
  · exact stepsTo_of_decode hr hp h
  · obtain ⟨u, hu, rfl⟩ | ⟨r, herr, rfl⟩ := exec_cases h
    · exact .executes i u hr hp hi hu
    · exact .raises r hr (.execute i hp hi herr)
  · exact .stays (.inr hp)

/-- A machine that is not running, or in the phase HALTED, performs no phase (table of 40_fsm.md R100). -/
theorem step_of_not_performing {s : State} (h : ¬ running s ∨ s.phase = .halted) : step s = .next s := by
  by_cases hf : s.fault = .none
  · cases hh : s.halted with
    | true => exact step_halted hh
    | false =>
      have hp : s.phase = .halted := h.resolve_left (not_not_intro ⟨hf, hh⟩)
      simp [step, stepPhase, hf, hh, hp]
  · exact step_faulted hf

/-- No step writes a general register (10_state.md R23). -/
theorem step_gpr {s t : State} (h : step s = .next t) : t.gpr = s.gpr := by
  cases stepsTo_of_step h with
  | stays | raises | fetches | decodes => rfl
  | executes i u _ _ _ hu =>
    obtain ⟨hg, -⟩ := effectOf_keeps hu
    exact hg

/-! ### The invariants -/

/-- A state ready to fetch has no instruction in flight, so the invariants ask of it what R23 and R51 ask. -/
theorem inv_of_ready {s : State} (hh : s.halted = false) (hp : s.phase = .fetch) (hf : s.fault = .none)
    (hm : s.mem.wf) (hn : s.gpr.length ≤ 16) (hg : ∀ g ∈ s.gpr, g = 0x0000) : Inv s where
  halted_iff := by simp [hh, hp]
  fault_phase h := absurd hf h
  mem_wf := hm
  latches h := by simp [hp] at h
  pc_after h := by simp [hp] at h
  gpr_count := hn
  gpr_zero := hg

/-- With an empty history no instruction has begun (10_state.md R37). -/
theorem traceInv_of_no_history {s : State} (hh : s.history = []) (hp : s.phase = .fetch) (hc : s.cycles = 0) :
    TraceInv s where
  phase_of_length := by simp [hh, hp, Phase.completed]
  tags_in_turn k snap h := by simp [hh] at h
  cycles_count := by simp [hh, hc]

theorem create_inv {p : Config.Params} (h : p.valid) : Inv (State.create p) := by
  obtain ⟨-, -, hn⟩ := id h
  exact inv_of_ready rfl rfl rfl (create_mem_wf h) (by simpa [State.create] using hn)
    fun g hg => List.eq_of_mem_replicate hg

theorem create_traceInv (p : Config.Params) : TraceInv (State.create p) := traceInv_of_no_history rfl rfl rfl

theorem hostReset_inv {s : State} (h : Inv s) : Inv (hostReset s) :=
  inv_of_ready rfl rfl rfl h.mem_wf (by simpa [hostReset] using h.gpr_count)
    fun g hg => List.eq_of_mem_replicate (hostReset_gpr s ▸ hg)

theorem hostReset_traceInv (s : State) : TraceInv (hostReset s) := traceInv_of_no_history rfl rfl rfl

/-- Any other well-formed memory keeps the invariants: no other clause of R33 reads the memory. -/
theorem Inv.withMem {s : State} {m : Memory} (h : Inv s) (hm : m.wf) : Inv (s.withMem m) :=
  { h with mem_wf := hm }

/-- A load grows the memory first, so that every word it writes has a cell (20_memory.md R54, R66). -/
theorem hostLoad_inv {words : List Word} {s t : State} (h : Inv s) (ht : hostLoad words s = some t) : Inv t := by
  obtain ⟨hlen, rfl⟩ := hostLoad_some ht
  exact h.withMem (putWords_wf (grow_wf h.mem_wf hlen) (by simp only [Memory.grow]; omega))

theorem hostWrite_inv {a : Nat} {v : Word} {s t : State} (h : Inv s) (ht : hostWrite a v s = some t) : Inv t := by
  obtain ⟨ha, rfl⟩ := hostWrite_some ht
  exact h.withMem (put_wf h.mem_wf ha v)

theorem Inv.phase_ne_halted {s : State} (h : Inv s) (hr : running s) : s.phase ≠ .halted := fun hp => by
  have := h.halted_iff.mpr hp
  simp [hr.2] at this

theorem raiseError_inv {s : State} (h : Inv s) (hr : running s) (r : Raise) : Inv (raiseError s r) :=
  { h with fault_phase := fun _ => ⟨hr.2, h.phase_ne_halted hr⟩ }

/-- FETCH establishes R33 (f). -/
theorem fetched_inv {s : State} (h : Inv s) (hr : running s) (w0 w1 : Word) :
    Inv (fetched s w0 w1 (wordLength w0)) :=
  { h with
    halted_iff := by simp [hr.2]
    fault_phase := fun hf => absurd hr.1 hf
    latches := fun hp => by simp at hp
    pc_after := fun _ => by simp }

/-- DECODE establishes R33 (e) and keeps (f). -/
theorem decoded_inv {s : State} {d : Triple} (h : Inv s) (hr : running s) (hp : s.phase = .decode)
    (hd : decodeTriple s.ir0 s.ir1 = .ok d) : Inv (decoded s d) :=
  { h with
    halted_iff := by simp [hr.2]
    fault_phase := fun hf => absurd hr.1 hf
    latches := fun _ => hd
    pc_after := fun _ => h.pc_after (.inl hp) }

/-- EXECUTE leaves no instruction in flight; it halts exactly into HALTED, R33 (a). -/
theorem finishExecute_inv {s u : State} {o : Opcode} {m : Mode} {v : Word} (h : Inv s) (hr : running s)
    (hu : effectOf o m v s = .ok u) : Inv (finishExecute (phaseAfter o) u) := by
  obtain ⟨hgpr, -, hfault, -⟩ := effectOf_keeps hu
  obtain ⟨hdec, hexe⟩ := phaseAfter_not_in_flight o
  exact {
    halted_iff := by simp [effectOf_halted hu, hr.2, phaseAfter_eq_halted]
    fault_phase := fun hf => absurd (hfault.trans hr.1) hf
    mem_wf := by simpa using effectOf_mem_wf hu h.mem_wf
    latches := fun hp => absurd hp hexe
    pc_after := fun hp => absurd hp (by simp [hdec, hexe])
    gpr_count := hgpr ▸ h.gpr_count
    gpr_zero := hgpr ▸ h.gpr_zero }

/-- Settles O47, along the ways a step can end. -/
theorem everyStepKeepsTheInvariants : Obligations.EveryStepKeepsTheInvariants := by
  intro s t h hst
  cases stepsTo_of_step hst with
  | stays => exact h
  | raises r hr => exact raiseError_inv h hr r
  | fetches w0 w1 hr => exact fetched_inv h hr w0 w1
  | decodes d hr hp hd => exact decoded_inv h hr hp hd
  | executes i u hr _ _ hu => exact finishExecute_inv h hr hu

end Sys2Proof.Machine
end

section
/-! SUPPORT. What EXECUTE may write, what the steps and the host's operations write of the counters and registers, and the
new machine. -/

namespace Sys2Proof.Machine

open Sys2Proof

/-- EXECUTE leaves every cell but the one STA names (10_state.md R34). -/
theorem exec_cell {i : Instr} {s t : State} (h : exec i s = .next t) {a : Nat}
    (ha : i.op = .sta → a ≠ i.operand.toNat) : t.mem.cell a = s.mem.cell a := by
  obtain ⟨hm | ⟨hsta, -, hm⟩, -⟩ := exec_mem h <;> rw [hm]
  exact put_cell_other (ha hsta) _

theorem exec_mem_size {i : Instr} {s t : State} (h : exec i s = .next t) : t.mem.size = s.mem.size := by
  obtain ⟨hm | ⟨-, -, hm⟩, -⟩ := exec_mem h <;> rw [hm]
  rfl

/-- Settles O20: the frame of a completed effect; where the effect raises, only the fault latch is written. -/
theorem executeWritesOnlyItsPorts : Obligations.ExecuteWritesOnlyItsPorts := by
  intro i s t h
  have hsize := exec_mem_size h
  have hcell : i.op ≠ .sta → ∀ a : Nat, t.mem.cell a = s.mem.cell a :=
    fun hne _ => exec_cell h fun hsta => absurd hsta hne
  have hother : i.op = .sta → ∀ a : Nat, a ≠ i.operand.toNat → t.mem.cell a = s.mem.cell a :=
    fun _ _ ha => exec_cell h fun _ => ha
  obtain ⟨u, hu, rfl⟩ | ⟨_, -, rfl⟩ := exec_cases h
  · obtain ⟨hacc, hpc, hcv, hflags, -⟩ := effectOf_ok hu
    obtain ⟨hgpr, -, -, hir0, hir1, hirAddr, hop, hmode, hoperand⟩ := effectOf_keeps hu
    have hhalted : i.op ≠ .halt → u.halted = s.halted := fun hne => by simp [effectOf_halted hu, hne]
    exact ⟨hacc, hpc, hcv, hflags, hhalted, hgpr, hir0, hir1, hirAddr, hop, hmode, hoperand, hsize, hcell, hother⟩
  · simp

/-- A step counts a cycle exactly when it completes an EXECUTE (10_state.md R25). -/
theorem step_cycles {s t : State} (h : step s = .next t) :
    (running s ∧ s.phase = .execute ∧ t.fault = .none ∧ t.cycles = s.cycles + 1) ∨
    (¬ (running s ∧ s.phase = .execute ∧ t.fault = .none) ∧ t.cycles = s.cycles) := by
  cases stepsTo_of_step h with
  | stays hn =>
    refine .inr ⟨?_, rfl⟩
    rintro ⟨hr, hp, -⟩
    obtain hn | hn := hn
    · exact hn hr
    · simp [hp] at hn
  | raises r _ hraise => exact .inr ⟨fun ⟨_, _, hf⟩ => hraise.code_ne_none hf, rfl⟩
  | fetches _ _ _ hp | decodes _ _ hp => exact .inr ⟨by simp [hp], rfl⟩
  | executes i u hr hp _ hu =>
    obtain ⟨-, hcycles, hfault, -⟩ := effectOf_keeps hu
    exact .inl ⟨hr, hp, hfault.trans hr.1, by simp [hcycles]⟩

/-- Settles O35: `step_cycles` read in both directions; reset zeroes the counter and the other host operations change the
memory only. -/
theorem cyclesCountCompletedExecutes : Obligations.CyclesCountCompletedExecutes := by
  intro s t h
  refine ⟨fun hex => ?_, fun hex => ?_, rfl, rfl, fun _ _ hu => ?_, fun _ _ _ hu => ?_⟩
  · obtain ⟨-, -, -, hc⟩ | ⟨hn, -⟩ := step_cycles h
    · exact hc
    · exact absurd hex hn
  · obtain ⟨hr, hp, hf, -⟩ | ⟨-, hc⟩ := step_cycles h
    · exact absurd ⟨hr, hp, hf⟩ hex
    · exact hc
  · obtain ⟨m, rfl⟩ := hostLoad_eq_withMem hu
    rfl
  · obtain ⟨m, rfl⟩ := hostWrite_eq_withMem hu
    rfl

/-- A step sets `halted` exactly when it runs the EXECUTE of HALT (10_state.md R26). -/
theorem step_halted_iff {s t : State} (h : step s = .next t) :
    t.halted = true ↔ s.halted = true ∨ (running s ∧ s.phase = .execute ∧ s.dOp = 0x02) := by
  cases stepsTo_of_step h with
  | stays hn =>
    have hnot : ¬ (running s ∧ s.phase = .execute ∧ s.dOp = 0x02) := by
      rintro ⟨hr, hp, -⟩
      simp [hr, hp] at hn
    simp only [hnot, or_false]
  | raises r _ hraise => simp only [raiseError_halted, hraise.not_halt, and_false, or_false]
  | fetches _ _ _ hp | decodes _ _ hp => simp [hp]
  | executes i u hr hp hi hu =>
    rw [finishExecute_halted, effectOf_halted hu, and_iff_right hr, and_iff_right hp, ← op_eq_halt_iff_latch hi]
    simp [hr.2]

/-- A step that ends faulted leaves `halted`: it was a no-op or its phase raised (60_exceptions.md R193). -/
theorem step_halted_of_fault {s t : State} (h : step s = .next t) (hf : t.fault ≠ .none) : t.halted = s.halted := by
  cases stepsTo_of_step h with
  | stays | raises | fetches | decodes => rfl
  | executes i u hr _ _ hu =>
    obtain ⟨-, -, hfault, -⟩ := effectOf_keeps hu
    exact absurd (hfault.trans hr.1) hf

/-- Settles O36: the steps by `step_halted_iff`; of the host's operations only reset writes `halted`. -/
theorem haltedIsSetByHaltAndClearedByReset : Obligations.HaltedIsSetByHaltAndClearedByReset := by
  intro s t h
  refine ⟨step_halted_iff h, fun hh => ?_, step_halted_of_fault h, rfl, rfl, fun _ _ hu => ?_, fun _ _ _ hu => ?_⟩
  · rw [step_halted hh] at h
    cases h
    rfl
  · obtain ⟨m, rfl⟩ := hostLoad_eq_withMem hu
    rfl
  · obtain ⟨m, rfl⟩ := hostWrite_eq_withMem hu
    rfl

/-- Settles O37: the steps by `step_gpr`; of the host's operations only reset writes a register. -/
theorem generalRegistersAreWrittenByResetOnly : Obligations.GeneralRegistersAreWrittenByResetOnly := by
  intro s t
  refine ⟨step_gpr, fun _ hu => ?_, fun _ _ hu => ?_, rfl, hostReset_gpr s⟩
  · obtain ⟨m, rfl⟩ := hostLoad_eq_withMem hu
    rfl
  · obtain ⟨m, rfl⟩ := hostWrite_eq_withMem hu
    rfl

/-- Settles O49: reset leaves a state ready to fetch, the other operations a well-formed memory. -/
theorem hostOperationsKeepTheInvariants : Obligations.HostOperationsKeepTheInvariants := fun s _ h =>
  ⟨hostReset_inv h, hostReset_traceInv s, h.withMem (clear_wf h.mem_wf), fun _ => hostLoad_inv h,
    fun _ _ => hostWrite_inv h⟩

/-- Settles O44: the values of R37 stand in `State.create`; the registers are copies of 0x0000 and no cell is listed. -/
theorem newMachineHoldsTheResetValues : Obligations.NewMachineHoldsTheResetValues := by
  refine ⟨fun p => ?_, rfl⟩
  have hgpr : (State.create p).gpr = List.replicate p.ngpr 0x0000 := rfl
  have hlength : (State.create p).gpr.length = p.ngpr := by rw [hgpr, List.length_replicate]
  have hzero : ∀ g ∈ (State.create p).gpr, g = 0 := fun g hg => List.eq_of_mem_replicate (hgpr ▸ hg)
  exact ⟨rfl, rfl, hlength, hzero, rfl, rfl, rfl, rfl, rfl, rfl, rfl, rfl, rfl, rfl, rfl, rfl, rfl, rfl, rfl, rfl, rfl,
    fun _ => create_cell⟩

/-- Settles O46: the parameters of `State.reset` are valid ones. -/
theorem invariantsHoldOfANewMachine : Obligations.InvariantsHoldOfANewMachine :=
  ⟨fun p h => ⟨create_inv h, create_traceInv p⟩, create_inv (p := Config.suggested) (by decide),
    create_traceInv Config.suggested⟩

end Sys2Proof.Machine
end

section
/-! SUPPORT. Older snapshots before the history commute with every operation of a step, so that no rule can read them
(10_state.md R32). -/

namespace Sys2Proof.Machine

open Sys2Proof

/-- The state with older snapshots before its history. -/
def State.withOlder (s : State) (older : List Snapshot) : State := { s with history := older ++ s.history }

/-- An outcome with its next state changed. -/
def mapNext (f : State → State) : Host.Outcome State Fault Refusal → Host.Outcome State Fault Refusal
  | .next t => .next (f t)
  | .fault r => .fault r
  | .refused r => .refused r

theorem mapNext_eq_next {f : State → State} {x : Host.Outcome State Fault Refusal} {t : State}
    (h : mapNext f x = .next t) : ∃ u, x = .next u ∧ t = f u := by
  cases x with
  | next u => cases h; exact ⟨u, rfl, rfl⟩
  | fault r | refused r => cases h

section
variable (s : State) (older : List Snapshot)

@[simp] theorem withOlder_history : (s.withOlder older).history = older ++ s.history := rfl

/-- Every state is the one with an empty history, put after its own history. -/
theorem withOlder_of_no_history : { s with history := [] }.withOlder older = { s with history := older } := by
  simp [State.withOlder]

theorem takeSnapshot_withOlder (tag : Tag) :
    takeSnapshot tag (s.withOlder older) = (takeSnapshot tag s).withOlder older := by
  simp [takeSnapshot, State.withOlder, snapshotOf, List.append_assoc]

theorem finishExecute_withOlder (p : Phase) :
    finishExecute p (s.withOlder older) = (finishExecute p s).withOlder older :=
  takeSnapshot_withOlder { s with cycles := s.cycles + 1, phase := p } older .execute

theorem fetched_withOlder (w0 w1 : Word) (len : Nat) :
    fetched (s.withOlder older) w0 w1 len = (fetched s w0 w1 len).withOlder older :=
  takeSnapshot_withOlder
    { s with ir0 := w0, ir1 := w1, irAddr := s.pc, pc := BitVec.ofNat 16 ((s.pc.toNat + len) % 65536), phase := .decode }
    older .fetch

theorem decoded_withOlder (d : Triple) : decoded (s.withOlder older) d = (decoded s d).withOlder older :=
  takeSnapshot_withOlder { s with dOp := d.op, dMode := d.mode, dOperand := d.operand, phase := .execute } older .decode

@[simp] theorem withOlder_acc : (s.withOlder older).acc = s.acc := rfl

@[simp] theorem withOlder_pc : (s.withOlder older).pc = s.pc := rfl

@[simp] theorem withOlder_ir0 : (s.withOlder older).ir0 = s.ir0 := rfl

@[simp] theorem withOlder_ir1 : (s.withOlder older).ir1 = s.ir1 := rfl

@[simp] theorem latchTriple_withOlder : latchTriple (s.withOlder older) = latchTriple s := rfl

@[simp] theorem withAcc_withOlder (v : Word) : (s.withOlder older).withAcc v = (s.withAcc v).withOlder older := rfl

@[simp] theorem withPc_withOlder (t : Word) : (s.withOlder older).withPc t = (s.withPc t).withOlder older := rfl

@[simp] theorem withMem_withOlder (m : Memory) : (s.withOlder older).withMem m = (s.withMem m).withOlder older := rfl

@[simp] theorem writeFlags_withOlder (out : AluOut) :
    writeFlags out (s.withOlder older) = (writeFlags out s).withOlder older := rfl

@[simp] theorem memRead_withOlder (a : Addr17) : memRead (s.withOlder older) a = memRead s a := rfl

@[simp] theorem memWrite_withOlder (a v : Word) : memWrite (s.withOlder older) a v = memWrite s a v := rfl

@[simp] theorem operandValue_withOlder (m : Mode) (v : Word) :
    operandValue m v (s.withOlder older) = operandValue m v s := rfl

theorem loadEffect_withOlder (m : Mode) (v : Word) :
    loadEffect m v (s.withOlder older) = (loadEffect m v s).map (·.withOlder older) := by
  cases h : operandValue m v s <;> simp [Except.map, loadEffect, h]

theorem staEffect_withOlder (m : Mode) (v : Word) :
    staEffect m v (s.withOlder older) = (staEffect m v s).map (·.withOlder older) := by
  cases h : memWrite s (effAddr v) s.acc <;> simp [Except.map, staEffect, h]

@[simp] theorem aluOrRaise_withOlder (f : AluOp) (b : Word) :
    aluOrRaise f b (s.withOlder older) = aluOrRaise f b s := rfl

theorem aluEffect_withOlder (f : AluOp) (m : Mode) (v : Word) :
    aluEffect f m v (s.withOlder older) = (aluEffect f m v s).map (·.withOlder older) := by
  cases h : operandValue m v s with
  | error r => simp [Except.map, aluEffect, h]
  | ok b => cases h' : aluOrRaise f b s <;> simp [Except.map, aluEffect, h, h']

theorem cmpEffect_withOlder (m : Mode) (v : Word) :
    cmpEffect m v (s.withOlder older) = (cmpEffect m v s).map (·.withOlder older) := by
  cases h : operandValue m v s with
  | error r => simp [Except.map, cmpEffect, h]
  | ok b => cases h' : aluOrRaise .sub b s <;> simp [Except.map, cmpEffect, h, h']

theorem jumpEffect_withOlder (taken : Bool) (m : Mode) (v : Word) :
    jumpEffect taken m v (s.withOlder older) = (jumpEffect taken m v s).map (·.withOlder older) := by
  cases taken with
  | false => rfl
  | true => cases h : operandValue m v s <;> simp [Except.map, jumpEffect, h]

theorem effectOf_withOlder (o : Opcode) (m : Mode) (v : Word) :
    effectOf o m v (s.withOlder older) = (effectOf o m v s).map (·.withOlder older) := by
  cases o
  case nop | halt | not => rfl
  case ldi | lda => exact loadEffect_withOlder s older m v
  case sta => exact staEffect_withOlder s older m v
  case add | sub | mul | div | and | or | xor => exact aluEffect_withOlder s older _ m v
  case cmp => exact cmpEffect_withOlder s older m v
  case jmp => exact jumpEffect_withOlder s older true m v
  all_goals exact jumpEffect_withOlder s older _ m v

theorem commit_withOlder (e : Except Raise State) :
    commit (s.withOlder older) (e.map (·.withOlder older)) = mapNext (·.withOlder older) (commit s e) := by
  cases e <;> rfl

theorem exec_withOlder (i : Instr) :
    exec i (s.withOlder older) = mapNext (·.withOlder older) (exec i s) := by
  simp only [exec_eq_effectOf, executePhase, effectOf_withOlder, ← commit_withOlder]
  cases effectOf i.op i.mode i.operand s with
  | error r => rfl
  | ok u => exact congrArg Host.Outcome.next (finishExecute_withOlder u older _)

theorem doFetch_withOlder : doFetch (s.withOlder older) = (doFetch s).map (·.withOlder older) := by
  cases h0 : memRead s (s.pc.setWidth 17) with
  | error r => simp [doFetch, h0, Except.map]
  | ok w0 =>
    cases hw : wideBit w0 with
    | false => simp [doFetch, h0, hw, fetched_withOlder, Except.map]
    | true =>
      cases h1 : memRead s (s.pc.setWidth 17 + 1) <;>
        simp only [doFetch, withOlder_pc, memRead_withOlder, h0, hw, h1, fetched_withOlder, if_true, except_bind_ok,
          except_bind_error, Except.map]

theorem doDecode_withOlder : doDecode (s.withOlder older) = (doDecode s).map (·.withOlder older) := by
  cases h : decodeTriple s.ir0 s.ir1 with
  | error c => simp [doDecode, h, Except.map]
  | ok d => simp [doDecode, h, decoded_withOlder, Except.map]

theorem executeLatched_withOlder :
    executeLatched (s.withOlder older) = mapNext (·.withOlder older) (executeLatched s) := by
  unfold executeLatched
  rw [withOlder_ir0, latchTriple_withOlder]
  cases instrOfLatches (wideBit s.ir0) (latchTriple s) with
  | none => rfl
  | some i => exact exec_withOlder s older i

/-- A step carries older snapshots along unread. -/
theorem step_withOlder : step (s.withOlder older) = mapNext (·.withOlder older) (step s) := by
  by_cases hr : running s
  · have hr' : running (s.withOlder older) := hr
    cases hp : s.phase with
    | fetch =>
      rw [step_fetch hr hp, step_fetch hr' hp, doFetch_withOlder, commit_withOlder]
    | decode =>
      rw [step_decode hr hp, step_decode hr' hp, doDecode_withOlder, commit_withOlder]
    | execute =>
      rw [step_execute hr hp, step_execute hr' hp, executeLatched_withOlder]
    | halted =>
      rw [step_of_not_performing (.inr hp), step_of_not_performing (s := s.withOlder older) (.inr hp)]
      rfl
  · rw [step_of_not_performing (.inl hr), step_of_not_performing (s := s.withOlder older) (.inl hr)]
    rfl

end

/-- Settles O34: `s` and the state with the history `h` are one state with an empty history, put after either. -/
theorem historyIsNeverRead : Obligations.HistoryIsNeverRead := by
  intro s t h hst
  have hs : { s with history := [] }.withOlder s.history = s := withOlder_of_no_history s s.history
  rw [← hs, step_withOlder] at hst
  obtain ⟨u, hu, rfl⟩ := mapNext_eq_next hst
  refine ⟨u.history, withOlder_history u s.history, ?_⟩
  rw [← withOlder_of_no_history s h, step_withOlder, hu]
  rfl

end Sys2Proof.Machine
end

section
/-! SUPPORT. What one write, a growth, a clear and a load leave in the cells, and the word FETCH reads after a store
(20_memory.md R53, R54, R63, R66 to R68). -/

namespace Sys2Proof.Machine

open Sys2Proof

/-! ### The cells after an operation on memory -/

/-- `mem[a] <- v` below the bound (20_memory.md R53). -/
theorem put_changes_one_cell {m : Memory} {a : Nat} (h : a < m.size) (v : Word) :
    (m.put a v).size = m.size ∧ (m.put a v).cell a = some v ∧ ∀ b : Nat, b ≠ a → (m.put a v).cell b = m.cell b :=
  ⟨put_size m a v, put_cell_same h v, fun _ hb => put_cell_other hb v⟩

@[simp] theorem grow_size (m : Memory) (n : Nat) : (m.grow n).size = max m.size n := rfl

/-- From `n` on, growth to `n` cells makes no address valid that was not: the cells there are the old ones
(20_memory.md R54). -/
theorem grow_cell_of_le {m : Memory} {n a : Nat} (h : n ≤ a) : (m.grow n).cell a = m.cell a := by
  have hvalid : a < (m.grow n).size ↔ a < m.size := by
    rw [grow_size, lt_max_iff]
    omega
  simp only [Memory.cell, hvalid]
  rfl

/-- Every valid cell of a cleared memory reads 0x0000 (20_memory.md R67). -/
theorem clear_cell {m : Memory} {a : Nat} (h : a < m.size) : m.clear.cell a = some 0x0000 :=
  cell_eq_some.mpr ⟨h, rfl⟩

/-! ### The host's operations, by the check each makes -/

theorem hostLoad_of_too_long {words : List Word} (h : 65536 < words.length) (s : State) : hostLoad words s = none := by
  simp only [hostLoad, Config.loadBase, Nat.zero_add, gt_iff_lt, h, if_true]

theorem hostLoad_of_fits {words : List Word} (h : words.length ≤ 65536) (s : State) :
    hostLoad words s = some (s.withMem ((s.mem.grow words.length).putWords 0 words)) := by
  simp only [hostLoad, Config.loadBase, Nat.zero_add, gt_iff_lt, Nat.not_lt.mpr h, if_false]

theorem hostWrite_of_invalid {a : Nat} {s : State} (h : s.mem.size ≤ a) (v : Word) : hostWrite a v s = none :=
  if_neg (Nat.not_lt.mpr h)

theorem hostWrite_of_valid {a : Nat} {s : State} (h : a < s.mem.size) (v : Word) :
    hostWrite a v s = some (s.withMem (s.mem.put a v)) :=
  if_pos h

/-! ### A store and the next FETCH -/

/-- A store that completes from a running machine leaves it running and ready to fetch, with the same `pc` and the
accumulator in the cell it names (42_load_store.md R142). -/
theorem exec_sta_completes {i : Instr} {s t : State} (hsta : i.op = .sta) (hr : running s)
    (h : exec i s = .next t) (ht : t.fault = .none) :
    running t ∧ t.phase = .fetch ∧ t.pc = s.pc ∧ t.mem.cell i.operand.toNat = some s.acc := by
  obtain ⟨u, hu, rfl⟩ | ⟨r, hraise, rfl⟩ := exec_cases h
  · rw [hsta] at hu ⊢
    obtain ⟨ha, hok⟩ | ⟨-, herr⟩ := staEffect_cases (m := i.mode) hu
    · cases hok
      exact ⟨hr, rfl, rfl, put_cell_same ha s.acc⟩
    · cases herr
  · exact absurd ht (effectOf_error_code hraise)

/-- A FETCH that completes buffers the word at `pc` and records where it stood (40_fsm.md R102). -/
theorem fetch_completes {s t : State} (hr : running s) (hp : s.phase = .fetch) (h : step s = .next t)
    (ht : t.fault = .none) : s.mem.cell s.pc.toNat = some t.ir0 ∧ t.irAddr = s.pc := by
  cases stepsTo_of_step h with
  | stays hn => simp [hr, hp] at hn
  | raises r _ hraise => exact absurd ht hraise.code_ne_none
  | fetches w0 w1 _ _ h0 => exact ⟨h0, rfl⟩
  | decodes _ _ hp' | executes _ _ _ hp' => simp [hp] at hp'

/-! ### The obligations -/

/-- Settles O38: the cell the store wrote is the one the FETCH after it reads. -/
theorem storeIsSeenByTheNextFetch : Obligations.StoreIsSeenByTheNextFetch := by
  intro i s t u hsta hr hpc hexec ht hstep hu
  obtain ⟨hrt, hfetch, hpct, hstored⟩ := exec_sta_completes hsta hr hexec ht
  obtain ⟨hread, haddr⟩ := fetch_completes hrt hfetch hstep hu
  have hsame : some u.ir0 = some s.acc := by rw [← hread, hpct, ← hpc, hstored]
  exact ⟨Option.some.inj hsame, haddr.trans hpct⟩

/-- Settles O40, by the check of `memWrite`. -/
theorem memWriteChangesOneCell : Obligations.MemWriteChangesOneCell := fun _ _ v =>
  ⟨fun ha => if_neg (Nat.not_lt.mpr ha), fun ha => ⟨_, if_pos ha, put_changes_one_cell ha v⟩⟩

/-- Settles O41: the memory is grown first, so every word has a cell, and neither the growth nor the words reach an address
beyond them. -/
theorem hostLoadInstallsTheWords : Obligations.HostLoadInstallsTheWords := by
  intro words s
  refine ⟨fun hlong => hostLoad_of_too_long hlong s, fun hfits => ⟨_, hostLoad_of_fits hfits s, ?_⟩⟩
  have hroom : 0 + words.length ≤ (s.mem.grow words.length).size := by
    rw [grow_size, Nat.zero_add]
    exact le_max_right ..
  obtain ⟨hwords, hbeyond⟩ := putWords_cell hroom
  refine ⟨putWords_size .., fun k w hk => ?_, fun a ha => ?_⟩
  · rw [← Nat.zero_add k]
    exact hwords k w hk
  · rw [hbeyond a (.inr (by omega)), grow_cell_of_le ha]

/-- Settles O42: reset keeps the memory by its definition, the clear and the write change the memory only. -/
theorem hostClearAndHostWriteChangeMemoryOnly : Obligations.HostClearAndHostWriteChangeMemoryOnly := fun s =>
  ⟨⟨s.mem.clear, rfl, rfl, fun _ => clear_cell⟩, rfl, fun _ v ha => hostWrite_of_invalid ha v,
    fun _ v ha => ⟨_, hostWrite_of_valid ha v, put_changes_one_cell ha v⟩⟩

end Sys2Proof.Machine
end

section
/-! SUPPORT. The encoder on each format of a valid triple, the words the decoder accepts, and the opcode numbers by what
R71 gives them: the statements of 30_encoding.md. -/

namespace Sys2Proof.Laws

open Sys2Proof

/-! ### The opcode numbers of R71 -/

theorem ofNumber_eq_some {n : BitVec 5} {o : Opcode} : Opcode.ofNumber n = some o ↔ n = o.number := by
  refine ⟨fun h => ?_, fun h => h ▸ ofNumber_number o⟩
  decide +revert

theorem ofNumber_eq_none {n : BitVec 5} :
    Opcode.ofNumber n = none ↔ n ∈ ([0x00, 0x0F, 0x11, 0x1A, 0x1B, 0x1C, 0x1D, 0x1E, 0x1F] : List (BitVec 5)) := by
  decide +revert

theorem number_mem_arityZero (o : Opcode) : o.number ∈ ([0x01, 0x02, 0x0E] : List (BitVec 5)) ↔ o.arity = 0 := by
  cases o <;> decide

theorem number_mem_literalOperand (o : Opcode) :
    o.number ∈ ([0x03, 0x10, 0x12, 0x13, 0x14, 0x15, 0x16, 0x17, 0x18, 0x19] : List (BitVec 5)) ↔
      o.arity ≠ 0 ∧ o.canonicalMode = .immediate := by
  cases o <;> decide

theorem number_mem_addressOperand (o : Opcode) :
    o.number ∈ ([0x04, 0x05, 0x06, 0x07, 0x08, 0x09, 0x0A, 0x0B, 0x0C, 0x0D] : List (BitVec 5)) ↔
      o.arity ≠ 0 ∧ o.canonicalMode = .direct := by
  cases o <;> decide

/-- Outside the unassigned numbers and those of arity 0, a number names an opcode of arity 1. -/
theorem number_takes_operand {n : BitVec 5} :
    n ∉ ([0x00, 0x0F, 0x11, 0x1A, 0x1B, 0x1C, 0x1D, 0x1E, 0x1F, 0x01, 0x02, 0x0E] : List (BitVec 5)) ↔
      ∃ o ∈ Opcode.ofNumber n, o.arity ≠ 0 := by
  decide +revert

/-! ### The decoder on the encoder's words -/

theorem wideBit_wideWord (o : Opcode) : wideBit o.wideWord = true := wideBit_firstWord ..

/-- A row of arity 0 has no operand field, so the two readings of it agree. -/
theorem decode_shortWord_eq (o : Opcode) (imm9 : BitVec 9) (w1 : Word) :
    decode (o.shortWord imm9) w1 = .ok (o.shortInstr o.canonicalMode imm9) := by
  rw [decode_shortWord]
  split
  · next h => cases o <;> first | rfl | cases h
  · rfl

/-- A short row is its opcode, mode and 9-bit operand. -/
theorem shortInstr_of_not_isWide {i : Instr} (h : i.isWide = false) :
    i.op.shortInstr i.mode (i.operand.setWidth 9) = i := by
  cases i <;> simp [Instr.isWide, Instr.op, Instr.mode, Instr.operand, Opcode.shortInstr] at h ⊢

/-- A wide row is its opcode, of arity 1, with mode and 16-bit operand. -/
theorem wideInstr_of_isWide {i : Instr} (h : i.isWide = true) :
    i.op.arity ≠ 0 ∧ i.op.wideInstr i.mode i.operand = i := by
  cases i <;> first | exact ⟨Nat.one_ne_zero, rfl⟩ | cases h

/-- The words DECODE accepts, with the triple they stand for, by format (30_encoding.md R72, R73, R75). -/
inductive LegalWords : Word → Word → Triple → Prop where
  | arityZero (o : Opcode) (w1 : Word) (h : o.arity = 0) : LegalWords (o.shortWord 0) w1 ⟨o.number, 0, o.canonicalMode⟩
  | short (o : Opcode) (imm9 : BitVec 9) (w1 : Word) (h : o.arity ≠ 0) :
      LegalWords (o.shortWord imm9) w1 ⟨o.number, imm9.setWidth 16, o.canonicalMode⟩
  | wide (o : Opcode) (w1 : Word) (h : o.arity ≠ 0) : LegalWords o.wideWord w1 ⟨o.number, w1, o.canonicalMode⟩

theorem decodeTriple_of_decode {w0 w1 : Word} {i : Instr} (h : decode w0 w1 = .ok i) :
    decodeTriple w0 w1 = .ok i.triple := by
  rw [decodeTriple, h]
  rfl

theorem decode_of_decodeTriple {w0 w1 : Word} {t : Triple} (h : decodeTriple w0 w1 = .ok t) :
    ∃ i, decode w0 w1 = .ok i ∧ i.triple = t := by
  unfold decodeTriple at h
  cases hd : decode w0 w1 with
  | error c => rw [hd] at h; cases h
  | ok i => rw [hd] at h; cases h; exact ⟨i, rfl, rfl⟩

/-- `Decode` as a relation: it answers a triple exactly on the legal words. -/
theorem decodeTriple_eq_ok {w0 w1 : Word} {t : Triple} : decodeTriple w0 w1 = .ok t ↔ LegalWords w0 w1 t := by
  constructor
  · intro h
    obtain ⟨i, hi, rfl⟩ := decode_of_decodeTriple h
    obtain ⟨o, -, ⟨h0, -, rfl, rfl⟩ | ⟨h1, -, hw, rfl⟩ | ⟨h1, -, rfl, rfl⟩⟩ := decode_ok_cases hi
    · rw [triple_arityZero h0, ← canonicalMode_arityZero h0]
      exact .arityZero o w1 h0
    · generalize imm9Field w0 = imm9 at hw ⊢
      rw [hw, triple_shortInstr h1]
      exact .short o imm9 w1 h1
    · rw [triple_wideInstr h1]
      exact .wide o w1 h1
  · rintro (⟨o, _, h0⟩ | ⟨o, imm9, _, h1⟩ | ⟨o, _, h1⟩)
    · rw [decodeTriple_of_decode (decode_shortWord_eq ..), triple_arityZero h0, canonicalMode_arityZero h0]
    · rw [decodeTriple_of_decode (decode_shortWord_eq ..), triple_shortInstr h1]
    · rw [decodeTriple_of_decode (decode_wideWord o h1 w1), triple_wideInstr h1]

theorem LegalWords.valid {w0 w1 : Word} {t : Triple} (h : LegalWords w0 w1 t) : t.valid := by
  cases h with
  | arityZero o => exact ⟨o, ofNumber_number o, rfl, fun _ => rfl⟩
  | short o _ _ h1 | wide o _ h1 => exact ⟨o, ofNumber_number o, rfl, fun h0 => absurd h0 h1⟩

/-! ### The encoder by format (R77) -/

@[simp] theorem encodeOp_number (o : Opcode) (v : Int) (forceWide : Bool) :
    encodeOp o.number v forceWide = o.encodeOperand v forceWide := by
  simp only [encodeOp, ofNumber_number]

theorem encodeOperand_arityZero {o : Opcode} (h : o.arity = 0) (v : Int) (forceWide : Bool) :
    o.encodeOperand v forceWide = .ok [o.shortWord 0] := if_pos h

theorem encodeOperand_short {o : Opcode} (h : o.arity ≠ 0) {v : Nat} (hv : v ≤ 0x1FF) :
    o.encodeOperand v false = .ok [o.shortWord (BitVec.ofNat 9 v)] := by
  rw [Opcode.encodeOperand, if_neg h, if_neg (by omega), if_pos ⟨by omega, rfl⟩, BitVec.ofInt_natCast]

theorem encodeOperand_wide {o : Opcode} (h : o.arity ≠ 0) {v : Nat} (hv : v ≤ 0xFFFF) {forceWide : Bool}
    (hw : forceWide = true ∨ 0x1FF < v) : o.encodeOperand v forceWide = .ok [o.wideWord, BitVec.ofNat 16 v] := by
  have hshort : ¬ ((v : Int) ≤ 0x1FF ∧ forceWide = false) := by
    rintro ⟨hle, rfl⟩
    obtain hf | hgt := hw
    · cases hf
    · omega
  rw [Opcode.encodeOperand, if_neg h, if_neg (by omega), if_neg hshort, BitVec.ofInt_natCast]

/-- The encoder of an assigned opcode has one error, and where it has it (R79). -/
theorem encodeOperand_eq_error {o : Opcode} {v : Int} {forceWide : Bool} {e : EncodeError} :
    o.encodeOperand v forceWide = .error e ↔ e = .encodingOverflow ∧ o.arity ≠ 0 ∧ (v < 0 ∨ 0xFFFF < v) := by
  unfold Opcode.encodeOperand
  split
  · next h0 => simp [h0]
  · next h1 =>
    split
    · next hv => simp [h1, hv, eq_comm]
    · next hv => split <;> simp [hv]

/-- Zero extension of the 9-bit field loses nothing of an operand that fits it (R75, R82). -/
theorem zext_ofNat {v : Nat} (hv : v ≤ 0x1FF) : (BitVec.ofNat 9 v).setWidth 16 = BitVec.ofNat 16 v := by
  apply BitVec.eq_of_toNat_eq
  simp only [BitVec.toNat_setWidth, BitVec.toNat_ofNat]
  omega

theorem encode_of_isWide {i : Instr} (h : i.isWide = true) : encode i = [i.op.wideWord, i.operand] := if_pos h

theorem encode_of_not_isWide {i : Instr} (h : i.isWide = false) :
    encode i = [i.op.shortWord (i.operand.setWidth 9)] := by
  simp [encode, h]

/-! ### The round trip (R83) -/

/-- The encoder answers legal words of every valid triple: one word, or two. -/
theorem encodeOp_of_valid {t : Triple} (h : t.valid) (forceWide : Bool) :
    (∃ w0, encodeOp t.op (t.operand.toNat : Int) forceWide = .ok [w0] ∧ ∀ w1, LegalWords w0 w1 t) ∨
    (∃ w0 w1, encodeOp t.op (t.operand.toNat : Int) forceWide = .ok [w0, w1] ∧ LegalWords w0 w1 t) := by
  obtain ⟨op, v, m⟩ := t
  obtain ⟨o, ho, rfl, hv0⟩ := h
  obtain rfl := ofNumber_eq_some.mp ho
  have hv : v.toNat ≤ 0xFFFF := Nat.le_of_lt_succ v.isLt
  simp only [encodeOp_number]
  by_cases h0 : o.arity = 0
  · obtain rfl := hv0 h0
    exact .inl ⟨_, encodeOperand_arityZero h0 _ _, fun w1 => .arityZero o w1 h0⟩
  by_cases hw : forceWide = true ∨ 0x1FF < v.toNat
  · refine .inr ⟨_, _, encodeOperand_wide h0 hv hw, ?_⟩
    rw [BitVec.ofNat_toNat, BitVec.setWidth_eq]
    exact .wide o v h0
  · obtain ⟨hf, hle⟩ := not_or.mp hw
    obtain rfl := Bool.eq_false_iff.mpr hf
    have hle := Nat.le_of_not_lt hle
    refine .inl ⟨_, encodeOperand_short h0 hle, fun w1 => ?_⟩
    have hzext : (BitVec.ofNat 9 v.toNat).setWidth 16 = v := by
      rw [zext_ofNat hle, BitVec.ofNat_toNat, BitVec.setWidth_eq]
    have hlegal := LegalWords.short o (BitVec.ofNat 9 v.toNat) w1 h0
    rwa [hzext] at hlegal

/-- Encoding a decoded triple, with `force_wide` the W bit, answers the words decoded. -/
theorem LegalWords.encodeOp_eq {w0 w1 : Word} {t : Triple} (h : LegalWords w0 w1 t) :
    encodeOp t.op (t.operand.toNat : Int) (wideBit w0) = .ok (if wideBit w0 then [w0, w1] else [w0]) := by
  cases h with
  | arityZero o _ h0 => rw [wideBit_shortWord, encodeOp_number, encodeOperand_arityZero h0]; rfl
  | short o imm9 _ h1 =>
    have hval : (imm9.setWidth 16).toNat = imm9.toNat := by
      rw [BitVec.toNat_setWidth]
      omega
    rw [wideBit_shortWord, encodeOp_number, hval, encodeOperand_short h1 (Nat.le_of_lt_succ imm9.isLt),
      BitVec.ofNat_toNat, BitVec.setWidth_eq]
    rfl
  | wide o _ h1 =>
    rw [wideBit_wideWord, encodeOp_number, encodeOperand_wide h1 (Nat.le_of_lt_succ w1.isLt) (.inl rfl),
      BitVec.ofNat_toNat, BitVec.setWidth_eq]
    rfl

/-- Legal words of one length and one triple are the same words, since the encoder answers both. -/
theorem LegalWords.injective {w0 w1 v0 v1 : Word} {t : Triple} (hw : LegalWords w0 w1 t) (hv : LegalWords v0 v1 t)
    (hlen : wideBit w0 = wideBit v0) : w0 = v0 ∧ (wideBit w0 = true → w1 = v1) := by
  have hwords := hw.encodeOp_eq.symm.trans (hlen ▸ hv.encodeOp_eq)
  cases hwide : wideBit w0 with
  | false =>
    have hword : w0 = v0 := by simpa [hwide] using hwords
    exact ⟨hword, nofun⟩
  | true =>
    have hboth : w0 = v0 ∧ w1 = v1 := by simpa [hwide] using hwords
    exact ⟨hboth.1, fun _ => hboth.2⟩

/-! ### The refused words (R81) -/

/-- When check (c) fails, by the mode the opcode asks for. -/
theorem modeOfBit_ne {b : Bool} {m : Mode} :
    modeOfBit b ≠ m ↔ (m = .immediate ∧ b = true) ∨ (m = .direct ∧ b = false) := by
  cases b <;> cases m <;> decide

/-- The low eleven bits of a first word are its W, M and imm9 fields. -/
theorem lowBits_ne_zero (w0 : Word) :
    w0.extractLsb' 0 11 ≠ 0 ↔ wideBit w0 = true ∨ modeBit w0 = true ∨ imm9Field w0 ≠ 0 := by
  constructor
  · intro h
    contrapose! h
    obtain ⟨hw, hm, himm⟩ := h
    refine BitVec.eq_of_getLsbD_eq fun k hk => ?_
    have hbit : w0.getLsbD k = false := by
      obtain hk9 | rfl | rfl : k < 9 ∨ k = 9 ∨ k = 10 := by omega
      · simpa [imm9Field, hk9] using congrArg (·.getLsbD k) himm
      · exact Bool.eq_false_iff.mpr hm
      · exact Bool.eq_false_iff.mpr hw
    simp [hbit]
  · intro h hzero
    have hbit : ∀ k < 11, w0.getLsbD k = false := fun k hk => by
      simpa [hk] using congrArg (·.getLsbD k) hzero
    obtain hw | hm | himm := h
    · exact absurd (hbit 10 (by omega)) (by simpa [wideBit] using hw)
    · exact absurd (hbit 9 (by omega)) (by simpa [modeBit] using hm)
    · refine himm (BitVec.eq_of_getLsbD_eq fun k hk => ?_)
      simp [imm9Field, hbit k (by omega)]

theorem decode_refuses_of_unassigned {w0 : Word} (h : Opcode.ofNumber (opcField w0) = none) (w1 : Word) (i : Instr) :
    decode w0 w1 ≠ .ok i := by
  simp [decode, h]

/-- One check of R80 in front of the rest of the decoder. -/
theorem refuses_check {c : Prop} [Decidable c] {e : DecodeReject} {r : Except DecodeReject Instr} :
    (∀ i, (if c then .error e else r) ≠ .ok i) ↔ c ∨ ∀ i, r ≠ .ok i := by
  by_cases h : c <;> simp [h]

/-- What DECODE refuses of an assigned opcode, in the order of R80. -/
theorem decode_refuses_iff {w0 : Word} {o : Opcode} (ho : opcField w0 = o.number) (w1 : Word) :
    (∀ i, decode w0 w1 ≠ .ok i) ↔
      (o.arity = 0 ∧ (wideBit w0 = true ∨ modeBit w0 = true ∨ imm9Field w0 ≠ 0)) ∨
      (o.arity ≠ 0 ∧ modeOfBit (modeBit w0) ≠ o.canonicalMode) ∨
      (o.arity ≠ 0 ∧ wideBit w0 = true ∧ imm9Field w0 ≠ 0) := by
  have hd := decode_firstWord o (wideBit w0) (modeBit w0) (imm9Field w0) w1
  rw [← ho, firstWord_of_fields] at hd
  rw [hd]
  by_cases h0 : o.arity = 0
  · rw [if_pos h0, refuses_check]
    simp [h0]
  · rw [if_neg h0, refuses_check]
    cases wideBit w0 with
    | false => simp [h0]
    | true =>
      rw [if_neg (by decide), refuses_check]
      simp [h0]

end Sys2Proof.Laws
end

section
/-! SUPPORT. The statements about the encoding, settled from the laws of the encoder and the decoder (30_encoding.md). -/

namespace Sys2Proof.Laws

open Sys2Proof

/-- Settles O1: a row is rebuilt from the opcode, mode and operand that its words carry. -/
theorem decodeOfEncodeIsTheRow : Obligations.DecodeOfEncodeIsTheRow := by
  intro i hmode
  have hmode : i.mode = i.op.canonicalMode := hmode
  cases hwide : i.isWide with
  | false =>
    refine .inl ⟨_, encode_of_not_isWide hwide, wideBit_shortWord .., fun w1 => ?_⟩
    rw [decode_shortWord_eq, ← hmode, shortInstr_of_not_isWide hwide]
  | true =>
    obtain ⟨harity, hrow⟩ := wideInstr_of_isWide hwide
    refine .inr ⟨_, _, encode_of_isWide hwide, wideBit_wideWord .., ?_⟩
    rw [decode_wideWord _ harity, ← hmode, hrow]

/-- Settles O2, over the legal words in place of the decoder. -/
theorem roundTripLaw : Obligations.RoundTripLaw := by
  simp only [Obligations.RoundTripLaw, decodeTriple_eq_ok]
  exact ⟨fun t forceWide hv => encodeOp_of_valid hv forceWide, fun _ _ _ h => ⟨h.valid, h.encodeOp_eq⟩,
    fun _ _ _ _ _ => LegalWords.injective⟩

/-- Settles O3: with an assigned opcode the three checks of R80 are (b), (c), (d); without one, (a) alone decides. -/
theorem illegalWordsAreExactlyThese : Obligations.IllegalWordsAreExactlyThese := by
  refine ⟨fun w0 w1 => ?_, fun w1 i =>
    ⟨decode_refuses_of_unassigned rfl w1 i, decode_refuses_of_unassigned rfl w1 i⟩⟩
  change _ ↔ opcField w0 ∈ _ ∨ opcField w0 ∈ _ ∧ _ ∨ opcField w0 ∈ _ ∧ modeBit w0 = true ∨
    opcField w0 ∈ _ ∧ modeBit w0 = false ∨ wideBit w0 = true ∧ imm9Field w0 ≠ 0
  rw [← ofNumber_eq_none]
  cases ho : Opcode.ofNumber (opcField w0) with
  | none => exact iff_of_true (decode_refuses_of_unassigned ho w1) (.inl rfl)
  | some o =>
    have hnum := ofNumber_eq_some.mp ho
    rw [decode_refuses_iff hnum, hnum, number_mem_arityZero, number_mem_literalOperand, number_mem_addressOperand,
      lowBits_ne_zero, modeOfBit_ne]
    have hassigned : ¬ some o = none := nofun
    tauto

/-- Settles O4, by whether the number is assigned. -/
theorem encoderErrorsAreExactlyThese : Obligations.EncoderErrorsAreExactlyThese := by
  intro op v forceWide
  rw [← ofNumber_eq_none, number_takes_operand]
  cases ho : Opcode.ofNumber op with
  | none => simp [encodeOp, ho]
  | some o =>
    obtain rfl := ofNumber_eq_some.mp ho
    simp [encodeOperand_eq_error]

/-- Settles O5: both words are legal, with the operand zero-extended from 9 bits in the one and written whole in the
other. -/
theorem wideEncodingOfSmallOperandIsTheSameTriple : Obligations.WideEncodingOfSmallOperandIsTheSameTriple := by
  intro op v hv hop
  obtain ⟨o, ho, harity⟩ := number_takes_operand.mp hop
  obtain rfl := ofNumber_eq_some.mp ho
  simp only [encodeOp_number, decodeTriple_eq_ok]
  refine ⟨_, _, _, _, encodeOperand_short harity hv, encodeOperand_wide harity (by omega) (.inl rfl), fun w1 => ?_,
    .wide o _ harity⟩
  rw [← zext_ofNat hv]
  exact .short o _ w1 harity

/-- Settles O6: each word is the short or the wide word of its opcode. -/
theorem spelledOutWordsDecode : Obligations.SpelledOutWordsDecode :=
  ⟨decode_shortWord_eq .nop 0 0, decode_shortWord_eq .halt 0 0, decode_shortWord_eq .ldi 5 0,
    decode_wideWord .lda (by decide) 0x0200, decode_wideWord .sta (by decide) 0x0200, decode_shortWord_eq .add 0x1FF 0,
    decode_wideWord .cmp (by decide) 0x8000, decode_shortWord_eq .xor 0x100 0, decode_shortWord_eq .not 0 0,
    decode_wideWord .jnz (by decide) 0xFFFF, decode_shortWord_eq .jnn 0x40 0⟩

end Sys2Proof.Laws
end

section
/-! SUPPORT. What FETCH, DECODE and EXECUTE do, each by the words and latches it finds, and the way of an instruction through
the three phases (40_fsm.md R102 to R104). -/

namespace Sys2Proof.Machine

open Sys2Proof Sys2Proof.Laws

/-! ### FETCH -/

/-- The address of the second word is not wrapped: 17 bits hold every `pc + 1` (40_fsm.md R102). -/
theorem toNat_setWidth17_succ (a : Word) : (a.setWidth 17 + 1).toNat = a.toNat + 1 := by
  have ha := a.isLt
  rw [BitVec.toNat_add, toNat_setWidth17]
  exact Nat.mod_eq_of_lt (by simp; omega)

theorem doFetch_of_no_first_word {s : State} (h : s.mem.size ≤ s.pc.toNat) :
    doFetch s = .error { code := .addressOutOfRange, info := s.pc.setWidth 17 } := by
  have hread := memRead_of_none (s := s) (a := s.pc.setWidth 17) (by rwa [toNat_setWidth17, cell_eq_none])
  rw [doFetch, hread, except_bind_error]

theorem doFetch_of_first_word {s : State} {w0 : Word} (h : s.mem.cell s.pc.toNat = some w0) :
    doFetch s = if wideBit w0 then (memRead s (s.pc.setWidth 17 + 1)).map (fetched s w0 · 2)
      else .ok (fetched s w0 0x0000 1) := by
  have hread := memRead_of_cell (s := s) (a := s.pc.setWidth 17) (by rwa [toNat_setWidth17])
  rw [doFetch, hread, except_bind_ok]
  cases memRead s (s.pc.setWidth 17 + 1) <;> rfl

theorem doFetch_of_no_second_word {s : State} {w0 : Word} (h0 : s.mem.cell s.pc.toNat = some w0)
    (hw : wideBit w0 = true) (h1 : s.mem.size ≤ s.pc.toNat + 1) :
    doFetch s = .error { code := .addressOutOfRange, info := s.pc.setWidth 17 + 1 } := by
  have hread := memRead_of_none (s := s) (a := s.pc.setWidth 17 + 1) (by rwa [toNat_setWidth17_succ, cell_eq_none])
  rw [doFetch_of_first_word h0, if_pos hw, hread]
  rfl

/-- FETCH completes with the words of the instruction at `pc`; there is no second word to a short one. -/
theorem doFetch_of_words {s : State} {w0 w1 : Word} (h0 : s.mem.cell s.pc.toNat = some w0)
    (h1 : if wideBit w0 then s.mem.cell (s.pc.toNat + 1) = some w1 else w1 = 0x0000) :
    doFetch s = .ok (fetched s w0 w1 (wordLength w0)) := by
  rw [doFetch_of_first_word h0, wordLength]
  split at h1
  · next hw =>
    have hread := memRead_of_cell (s := s) (a := s.pc.setWidth 17 + 1) (by rwa [toNat_setWidth17_succ])
    rw [if_pos hw, if_pos hw, hread]
    rfl
  · next hw => rw [if_neg hw, if_neg hw, h1]

/-- The sum of R102 modulo 65536 is the sum of words. -/
theorem fetched_eq_afterFetch (s : State) (w0 w1 : Word) (len : Nat) : fetched s w0 w1 len = afterFetch s w0 w1 len := by
  have hpc : BitVec.ofNat 16 ((s.pc.toNat + len) % 65536) = s.pc + BitVec.ofNat 16 len := by
    apply BitVec.eq_of_toNat_eq
    simp
  simp only [fetched, takeSnapshot, snapshotOf, afterFetch, hpc]

theorem step_fetch_completes {s : State} {w0 w1 : Word} (hr : running s) (hp : s.phase = .fetch)
    (h0 : s.mem.cell s.pc.toNat = some w0)
    (h1 : if wideBit w0 then s.mem.cell (s.pc.toNat + 1) = some w1 else w1 = 0x0000) :
    step s = .next (afterFetch s w0 w1 (wordLength w0)) := by
  rw [step_fetch hr hp, doFetch_of_words h0 h1, commit_ok, fetched_eq_afterFetch]

theorem step_fetch_raises {s : State} {e : ErrorCode} {info : BitVec 17} (hr : running s) (hp : s.phase = .fetch)
    (h : doFetch s = .error { code := e, info := info }) : step s = .next (afterError s e info) := by
  rw [step_fetch hr hp, h]
  rfl

/-! ### DECODE -/

theorem step_decode_completes {s : State} {d : Triple} (hr : running s) (hp : s.phase = .decode)
    (h : decodeTriple s.ir0 s.ir1 = .ok d) : step s = .next (afterDecode s d) := by
  rw [step_decode hr hp, doDecode, h]
  rfl

theorem step_decode_raises {s : State} {c : DecodeReject} (hr : running s) (hp : s.phase = .decode)
    (h : decodeTriple s.ir0 s.ir1 = .error c) : step s = .next (afterError s .decodeError (s.ir0.setWidth 17)) := by
  rw [step_decode hr hp, doDecode, h]
  rfl

/-- The second word does not count when bit 10 of the first is clear (30_encoding.md R80). -/
theorem decode_short_ignores_second {w0 : Word} (h : wideBit w0 = false) (w1 v1 : Word) :
    decode w0 w1 = decode w0 v1 := by
  simp only [decode, h, if_true]

/-! ### EXECUTE -/

/-- After the DECODE of a word pair, EXECUTE runs the instruction they decode to (40_fsm.md R104). -/
theorem step_execute_decoded {s : State} {i : Instr} (hr : running s) (h : decode s.ir0 s.ir1 = .ok i) :
    step (afterDecode s i.triple) = exec i (afterDecode s i.triple) := by
  obtain ⟨hlatch, -⟩ := instrOfLatches_of_decode h
  have hheld : instrOfLatches (wideBit (afterDecode s i.triple).ir0) (latchTriple (afterDecode s i.triple)) = some i :=
    hlatch
  rw [step_execute (s := afterDecode s i.triple) hr rfl, executeLatched, hheld]

/-! ### The model's own placement of a word (log 1) -/

/-- With room for two words, the placed words stand at `pc` and after it. -/
theorem placeWords_cells {s : State} (h : s.pc.toNat + 1 < 65536) (w0 w1 : Word) :
    (placeWords s w0 w1).mem.cell s.pc.toNat = some w0 ∧ (placeWords s w0 w1).mem.cell (s.pc.toNat + 1) = some w1 := by
  have hmem : (placeWords s w0 w1).mem =
      ((s.mem.grow (min 65536 (s.pc.toNat + 2))).put s.pc.toNat w0).put (s.pc.toNat + 1) w1 := if_pos h
  have hroom : s.pc.toNat + 1 < (s.mem.grow (min 65536 (s.pc.toNat + 2))).size := by
    rw [grow_size]
    omega
  rw [hmem]
  refine ⟨?_, put_cell_same (by rwa [put_size]) w1⟩
  rw [put_cell_other (by omega)]
  exact put_cell_same (by omega) w0

theorem runFrontEnd_of_decode {s : State} {w0 w1 : Word} {i : Instr} (h0 : s.mem.cell s.pc.toNat = some w0)
    (h1 : if wideBit w0 then s.mem.cell (s.pc.toNat + 1) = some w1 else w1 = 0x0000) (h : decode w0 w1 = .ok i) :
    runFrontEnd s = afterDecode (afterFetch s w0 w1 (wordLength w0)) i.triple := by
  simp only [runFrontEnd, doFetch_of_words h0 h1, doDecode, fetched_ir0, fetched_ir1, decodeTriple_of_decode h]
  rw [fetched_eq_afterFetch]
  rfl

/-- FETCH and DECODE of placed words that decode leave them in the buffer, a short one alone, and the triple in the
latches. -/
theorem runFrontEnd_placeWords {s : State} {w0 w1 : Word} {i : Instr} (hpc : s.pc.toNat + 1 < 65536)
    (h : decode w0 w1 = .ok i) :
    ∃ v1, decode w0 v1 = .ok i ∧ runFrontEnd (placeWords s w0 w1) =
      afterDecode (afterFetch (placeWords s w0 w1) w0 v1 (wordLength w0)) i.triple := by
  obtain ⟨h0, h1⟩ := placeWords_cells hpc w0 w1
  cases hw : wideBit w0 with
  | true => exact ⟨w1, h, runFrontEnd_of_decode h0 (by rwa [if_pos hw]) h⟩
  | false =>
    have h' : decode w0 0x0000 = .ok i := by rw [decode_short_ignores_second hw 0x0000 w1, h]
    exact ⟨0x0000, h', runFrontEnd_of_decode h0 (by simp [hw]) h'⟩

theorem decode_of_decodeTableWord {nbits w : Nat} {i : Instr} (h : decodeTableWord nbits w = some i) :
    decode (BitVec.ofNat 16 (w % 2 ^ nbits)) (BitVec.ofNat 16 (w % 2 ^ nbits / 65536)) = .ok i := by
  unfold decodeTableWord at h
  split at h
  · next hd => rw [hd, Option.some.inj h]
  · cases h

/-! ### The obligations -/

/-- Settles O25: FETCH by the words it finds at `pc` and `pc + 1`. -/
theorem fetchReadsWordsAndAdvancesPc : Obligations.FetchReadsWordsAndAdvancesPc := by
  intro s hr hp
  refine ⟨fun hsize => step_fetch_raises hr hp (doFetch_of_no_first_word hsize), fun w0 h0 hw => ?_, fun w0 h0 hw => ?_⟩
  · have hshort : wideBit w0 = false := hw
    have hlen : wordLength w0 = 1 := by simp [wordLength, hshort]
    rw [← hlen]
    exact step_fetch_completes hr hp h0 (by simp [hshort])
  · have hwide : wideBit w0 = true := hw
    have hlen : wordLength w0 = 2 := if_pos hwide
    have hbeyond : s.mem.size ≤ s.pc.toNat + 1 →
        step s = .next (afterError s .addressOutOfRange (s.pc.setWidth 17 + 1)) :=
      fun hsize => step_fetch_raises hr hp (doFetch_of_no_second_word h0 hwide hsize)
    refine ⟨hbeyond, fun w1 h1 => ?_, fun hpc hsize => ?_⟩
    · rw [← hlen]
      exact step_fetch_completes hr hp h0 (by rwa [if_pos hwide])
    · rw [hpc] at hbeyond
      exact hbeyond hsize

/-- Settles O26, by what the decoder answers on the buffer. -/
theorem decodeWritesTheLatches : Obligations.DecodeWritesTheLatches := by
  intro s hr hp
  refine ⟨fun d hd => step_decode_completes hr hp hd, fun hno => ?_⟩
  cases hd : decodeTriple s.ir0 s.ir1 with
  | ok d => exact absurd hd (hno d)
  | error c => exact step_decode_raises hr hp hd

/-- Settles O23: the words FETCH buffers are the ones DECODE reads, and the triple it latches holds the instruction. -/
theorem threeStepsRunTheDecodedInstruction : Obligations.ThreeStepsRunTheDecodedInstruction := by
  intro s w0 w1 i hr hp h0 hwide hshort hd
  have h1 : if wideBit w0 then s.mem.cell (s.pc.toNat + 1) = some w1 else w1 = 0x0000 := by
    split
    · next hw => exact hwide hw
    · next hw => exact hshort (Bool.eq_false_of_not_eq_true hw)
  obtain ⟨-, hwf⟩ := instrOfLatches_of_decode hd
  have hlen : (if w0.getLsbD 10 then 2 else 1) = wordLength w0 := rfl
  rw [hlen]
  exact ⟨hwf, step_fetch_completes hr hp h0 h1, step_decode_completes hr rfl (decodeTriple_of_decode hd),
    step_execute_decoded hr hd⟩

/-- Settles O45: placing the words makes the machine run, and neither FETCH nor DECODE stops on them. -/
theorem placedWordRunsAtTheNextStep : Obligations.PlacedWordRunsAtTheNextStep := by
  intro s nbits w i hpc h
  obtain ⟨v1, hd, hfront⟩ := runFrontEnd_placeWords hpc (decode_of_decodeTableWord h)
  rw [State.withFetchWord, hfront]
  exact ⟨step_execute_decoded ⟨rfl, rfl⟩ hd, rfl, rfl, rfl, rfl⟩

end Sys2Proof.Machine
end

section
/-! SUPPORT. The transition table, the snapshots, and what `step()` returns: the phase machine seen by its host (40_fsm.md R100,
R101, R107 to R111). -/

namespace Sys2Proof.Machine

open Sys2Proof

/-! ### The phase after a step -/

/-- The transition table of 40_fsm.md R100, for a step that raises no error. -/
def nextPhase (s : State) : Phase :=
  match s.phase with
  | .fetch => .decode
  | .decode => .execute
  | .execute => if s.dOp = 0x02 then .halted else .fetch
  | .halted => .halted

theorem nextPhase_execute {s : State} (h : s.phase = .execute) :
    nextPhase s = if s.dOp = 0x02 then .halted else .fetch := by
  simp only [nextPhase, h]

/-- The phase a step leaves: the next one of the table, or the same after an error or a no-op. -/
theorem step_phase {s t : State} (h : step s = .next t) :
    (running s ∧ t.fault = .none ∧ t.phase = nextPhase s) ∨
    ((¬ running s ∨ t.fault ≠ .none) ∧ t.phase = s.phase) := by
  cases stepsTo_of_step h with
  | stays hn =>
    by_cases hr : running s
    · have hp := hn.resolve_left (not_not_intro hr)
      exact .inl ⟨hr, hr.1, by simp [nextPhase, hp]⟩
    · exact .inr ⟨.inl hr, rfl⟩
  | raises r _ hraise => exact .inr ⟨.inr hraise.code_ne_none, rfl⟩
  | fetches _ _ hr hp | decodes _ hr hp => exact .inl ⟨hr, hr.1, by simp [nextPhase, hp]⟩
  | executes i u hr hp hi hu =>
    obtain ⟨-, -, hfault, -⟩ := effectOf_keeps hu
    refine .inl ⟨hr, hfault.trans hr.1, ?_⟩
    simp only [finishExecute_phase, phaseAfter, op_eq_halt_iff_latch hi, nextPhase_execute hp]

/-- Settles O27: the steps by `step_phase`; of the host's operations only reset writes the phase. -/
theorem phaseTransitionsFollowTheTable : Obligations.PhaseTransitionsFollowTheTable := by
  intro s t h
  refine ⟨fun hr hf => ?_, fun hf => ?_, fun hp => ?_, fun hn => ?_, rfl, rfl, fun _ _ hu => ?_, fun _ _ _ hu => ?_⟩
  · obtain ⟨-, -, hnext⟩ | ⟨hno, -⟩ := step_phase h
    · rw [hnext]
      exact ⟨fun hp => by simp [nextPhase, hp], fun hp => by simp [nextPhase, hp],
        fun hp hop => by rw [nextPhase_execute hp, if_neg hop], fun hp hop => by rw [nextPhase_execute hp, if_pos hop]⟩
    · exact absurd hf (hno.resolve_left (not_not_intro hr))
  · obtain ⟨-, hf', -⟩ | ⟨-, hsame⟩ := step_phase h
    · exact absurd hf' hf
    · exact hsame
  · rw [step_of_not_performing (.inr hp)] at h
    cases h
    exact hp
  · rw [step_of_not_performing (.inl hn)] at h
    cases h
    rfl
  · obtain ⟨m, rfl⟩ := hostLoad_eq_withMem hu
    rfl
  · obtain ⟨m, rfl⟩ := hostWrite_eq_withMem hu
    rfl

/-! ### The snapshot of a step -/

/-- The tag of the snapshot a phase appends when it completes (40_fsm.md R107). -/
def Phase.tag? : Phase → Option Tag
  | .fetch => some .fetch
  | .decode => some .decode
  | .execute => some .execute
  | .halted => none

theorem effectOf_history {o : Opcode} {m : Mode} {v : Word} {s u : State} (h : effectOf o m v s = .ok u) :
    u.history = s.history := by
  obtain ⟨-, -, -, -, -, -, hu⟩ := effectOf_ok h
  rw [hu]

/-- What a step appends: a completed phase the one snapshot of the state it leaves, any other step nothing. -/
theorem step_history {s t : State} (h : step s = .next t) :
    (∃ tag, s.phase.tag? = some tag ∧ running s ∧ t.fault = .none ∧ t.history = s.history ++ [snapshotOf tag t]) ∨
    ((¬ running s ∨ s.phase = .halted ∨ t.fault ≠ .none) ∧ t.history = s.history) := by
  cases stepsTo_of_step h with
  | stays hn => exact .inr ⟨hn.imp_right .inl, rfl⟩
  | raises r _ hraise => exact .inr ⟨.inr (.inr hraise.code_ne_none), rfl⟩
  | fetches _ _ hr hp => exact .inl ⟨.fetch, by rw [hp]; rfl, hr, hr.1, rfl⟩
  | decodes _ hr hp => exact .inl ⟨.decode, by rw [hp]; rfl, hr, hr.1, rfl⟩
  | executes i u hr hp _ hu =>
    obtain ⟨-, -, hfault, -⟩ := effectOf_keeps hu
    refine .inl ⟨.execute, by rw [hp]; rfl, hr, hfault.trans hr.1, ?_⟩
    rw [← effectOf_history hu]
    rfl

/-- Settles O33, by `step_history`. -/
theorem everyCompletedPhaseAppendsOneSnapshot : Obligations.EveryCompletedPhaseAppendsOneSnapshot := by
  intro s t h
  obtain ⟨tag, htag, hr, hf, hone⟩ | ⟨hno, hsame⟩ := step_history h
  · refine ⟨fun _ _ tag' hphase => ?_, fun hn => ?_⟩
    · have htag' : s.phase.tag? = some tag' := by
        obtain ⟨hp, rfl⟩ | ⟨hp, rfl⟩ | ⟨hp, rfl⟩ := hphase <;> rw [hp] <;> rfl
      obtain rfl : tag = tag' := Option.some.inj (htag.symm.trans htag')
      exact hone
    · simp [hr, hf] at hn
  · refine ⟨fun hr hf tag hphase => ?_, fun _ => hsame⟩
    have hp : s.phase = .halted := by simpa [hr, hf] using hno
    simp [hp] at hphase

/-! ### What a step returns -/

/-- The triple `step()` returns, read from the state it leaves (40_fsm.md R101). -/
def outputOf (t : State) : StepOutput where
  continues := decide (t.fault = .none) && !t.halted
  error := t.fault
  errorInfo := if t.fault = .none then 0 else t.faultInfo

theorem outputOf_continues (t : State) : (outputOf t).continues = true ↔ running t := by
  simp [outputOf]

theorem stepOutput_of_faulted {s : State} (h : s.fault ≠ .none) :
    stepOutput s = some { continues := false, error := s.fault, errorInfo := s.faultInfo } := if_pos h

theorem stepOutput_of_halted {s : State} (hf : s.fault = .none) (hh : s.halted = true) :
    stepOutput s = some { continues := false, error := .none, errorInfo := 0 } := by
  simp [stepOutput, hf, hh]

theorem stepOutput_of_step {s t : State} (h : step s = .next t) : stepOutput s = some (outputOf t) := by
  by_cases hf : s.fault = .none
  · cases hh : s.halted with
    | true =>
      rw [step_halted hh] at h
      cases h
      simp [stepOutput_of_halted hf hh, outputOf, hf, hh]
    | false =>
      by_cases ht : t.fault = .none <;> simp [stepOutput, hf, hh, h, ht, outputOf]
  · rw [step_faulted hf] at h
    cases h
    simp [stepOutput_of_faulted hf, outputOf, hf]

/-- Settles O28. -/
theorem stepOnceHaltedIsANoOp : Obligations.StepOnceHaltedIsANoOp := fun _ hh hf =>
  ⟨step_halted hh, stepOutput_of_halted hf hh⟩

/-- Settles O29: the latch stops the step before it reads the memory, and only reset writes the latch. -/
theorem stepOnceFaultedIsANoOp : Obligations.StepOnceFaultedIsANoOp := by
  intro s hf
  refine ⟨fun m => step_faulted hf, step_faulted hf, stepOutput_of_faulted hf, rfl, fun _ _ ht => ?_,
    fun _ _ _ ht => ?_, rfl⟩
  · obtain ⟨m, rfl⟩ := hostLoad_eq_withMem ht
    rfl
  · obtain ⟨m, rfl⟩ := hostWrite_eq_withMem ht
    rfl

/-- Settles O30, by `stepOutput_of_step`. -/
theorem stepReturnsContinuesAndError : Obligations.StepReturnsContinuesAndError := fun _ t h =>
  ⟨outputOf t, stepOutput_of_step h, rfl, rfl, outputOf_continues t⟩

/-- Under the invariants a machine that is not running is at one of its two ends (40_fsm.md R111). -/
theorem Inv.not_running_iff {t : State} (h : Inv t) : ¬ running t ↔ haltedEnd t ∨ faultedEnd t := by
  constructor
  · intro hn
    by_cases hf : t.fault = .none
    · have hh : t.halted = true := by simpa [hf] using hn
      exact .inl ⟨hh, h.halted_iff.mp hh, hf⟩
    · exact .inr ⟨hf, (h.fault_phase hf).1⟩
  · rintro (⟨hh, -, -⟩ | ⟨hf, -⟩) ⟨hf', hh'⟩
    · simp [hh] at hh'
    · exact hf hf'

/-- Settles O39: the state left has the invariants, and `step()` answers that it is not running. -/
theorem runsEndHaltedOrFaulted : Obligations.RunsEndHaltedOrFaulted := by
  intro s t o h hst ho
  obtain rfl : outputOf t = o := Option.some.inj ((stepOutput_of_step hst).symm.trans ho)
  refine ⟨?_, fun ⟨⟨_, _, hf⟩, hf', _⟩ => hf' hf⟩
  rw [← (everyStepKeepsTheInvariants s t h hst).not_running_iff, ← outputOf_continues, Bool.not_eq_true]

end Sys2Proof.Machine
end

section
/-! SUPPORT. The trace of a run, and runs of any length (40_fsm.md R104, R107, R110, R111). -/

namespace Sys2Proof.Machine

open Sys2Proof Sys2Proof.Laws

/-! ### The trace -/

/-- The tag of a phase is the one whose turn it is after the snapshots of the phases before it. -/
theorem Phase.tag_in_turn {p : Phase} {tag : Tag} (h : p.tag? = some tag) :
    tag = if p.completed = 0 then .fetch else if p.completed = 1 then .decode else .execute := by
  cases p <;> cases h <;> rfl

/-- A completed phase carries the trace on: its snapshot has the tag whose turn it is, and every third one counts a cycle. -/
theorem TraceInv.snapshot {s t : State} {snap : Snapshot} (h : TraceInv s) (hhist : t.history = s.history ++ [snap])
    (htag : s.phase.tag? = some snap.tag) (hphase : t.phase.completed = (s.phase.completed + 1) % 3)
    (hcycles : t.cycles = if s.phase = .execute then s.cycles + 1 else s.cycles) : TraceInv t where
  phase_of_length := by
    rw [hhist, hphase, ← h.phase_of_length, List.length_append, List.length_singleton]
    omega
  tags_in_turn k snap' hk := by
    rw [hhist] at hk
    obtain hlt | rfl | hgt := Nat.lt_trichotomy k s.history.length
    · rw [List.getElem?_append_left hlt] at hk
      exact h.tags_in_turn k snap' hk
    · rw [List.getElem?_concat_length, Option.some.injEq] at hk
      subst hk
      rw [h.phase_of_length]
      exact Phase.tag_in_turn htag
    · rw [List.getElem?_eq_none (by simpa using hgt)] at hk
      cases hk
  cycles_count := by
    have hlen := h.phase_of_length
    rw [hcycles, hhist, List.length_append, List.length_singleton]
    cases hp : s.phase with
    | fetch | decode =>
      rw [hp, Phase.completed] at hlen
      have hthird : (s.history.length + 1) / 3 = s.history.length / 3 := by omega
      rw [if_neg nofun, h.cycles_count, hthird]
    | execute =>
      rw [hp, Phase.completed] at hlen
      have hthird : (s.history.length + 1) / 3 = s.history.length / 3 + 1 := by omega
      rw [if_pos rfl, BitVec.toNat_add, h.cycles_count, hthird]
      exact Nat.mod_add_mod ..
    | halted =>
      rw [hp] at htag
      cases htag

/-- Settles O48, along the ways a step can end: each completed phase by `TraceInv.snapshot`. -/
theorem everyStepKeepsTheTrace : Obligations.EveryStepKeepsTheTrace := by
  intro s t h hst
  cases stepsTo_of_step hst with
  | stays => exact h
  | raises => exact { h with }
  | fetches _ _ _ hp => exact h.snapshot rfl (by rw [hp]; rfl) (by rw [hp]; rfl) (by simp [hp])
  | decodes _ _ hp => exact h.snapshot rfl (by rw [hp]; rfl) (by rw [hp]; rfl) (by simp [hp])
  | executes i u _ hp _ hu =>
    obtain ⟨-, hcycles, -⟩ := effectOf_keeps hu
    have hphase : (phaseAfter i.op).completed = 0 := by
      unfold phaseAfter
      split <;> rfl
    exact h.snapshot (by rw [finishExecute_history, effectOf_history hu]) (by rw [hp]; rfl)
      (by rw [finishExecute_phase, hphase, hp]; rfl) (by simp [hp, hcycles])

/-! ### Runs -/

/-- R33 (e) rules out the one stop of the model: the latches of an EXECUTE hold a decoded instruction. -/
theorem Inv.step_next {s : State} (h : Inv s) : ∃ t, step s = .next t := by
  by_cases hr : running s
  · cases hp : s.phase with
    | fetch => exact step_fetch hr hp ▸ commit_next s _
    | decode => exact step_decode hr hp ▸ commit_next s _
    | execute =>
      obtain ⟨i, hd, hi⟩ := decode_of_decodeTriple (h.latches hp)
      obtain ⟨hlatch, -⟩ := instrOfLatches_of_decode hd
      rw [hi] at hlatch
      rw [step_execute hr hp, executeLatched, hlatch]
      exact exec_next i s
    | halted => exact ⟨s, step_of_not_performing (.inr hp)⟩
  · exact ⟨s, step_of_not_performing (.inl hr)⟩

/-- No step grows or shrinks the memory (20_memory.md R53). -/
theorem step_mem_size {s t : State} (h : step s = .next t) : t.mem.size = s.mem.size := by
  cases stepsTo_of_step h with
  | stays | raises | fetches | decodes => rfl
  | executes i u _ _ _ hu =>
    rw [finishExecute_mem]
    obtain ⟨-, hm⟩ | ⟨-, -, hm⟩ := effectOf_mem hu <;> rw [hm]
    exact put_size ..

theorem run_succ_of_step {n : Nat} {s t : State} (h : step s = .next t) :
    Host.Core.run core (n + 1) s = Host.Core.run core n t := by
  simp only [Host.Core.run]
  rw [show core.step s = .next t from h]

/-- Settles O50, by induction on the number of steps: under the invariants the next step answers a next state, which has
them. -/
theorem runsOfAnyLengthAnswerANextState : Obligations.RunsOfAnyLengthAnswerANextState := by
  intro n
  induction n with
  | zero => exact fun s h => ⟨s, rfl, h, rfl, rfl⟩
  | succ n ih =>
    intro s h
    obtain ⟨u, hu⟩ := h.step_next
    obtain ⟨t, hrun, ht, hsize, hgpr⟩ := ih u (everyStepKeepsTheInvariants s u h hu)
    exact ⟨t, (run_succ_of_step hu).trans hrun, ht, hsize.trans (step_mem_size hu), hgpr.trans (step_gpr hu)⟩

end Sys2Proof.Machine
end

section
/-! SUPPORT. The flag unit's overflow as the library's signed overflow, and the ALU's results as the operations of words
(41_flag_unit_alu.md R125, R126, R130, R132). -/

namespace Sys2Proof.Machine

open Sys2Proof

/-! ### The overflow output -/

/-- The reading of R10 is the library's two's complement. -/
@[simp] theorem signed16_eq_toInt (v : Word) : signed16 v = v.toInt := by
  have hhalf : v.toNat < 0x8000 ↔ 2 * v.toNat < 2 ^ 16 := by omega
  simp only [signed16, hhalf, BitVec.toInt_eq_toNat_cond]
  rfl

@[simp] theorem outsideSigned16_iff {x : Int} : outsideSigned16 x = true ↔ x < -32768 ∨ 32767 < x := decide_eq_true_iff

@[simp] theorem flagUnit_v (k : FlagKind) (a b r : Word) : (flagUnit k a b r).v = overflowOut k a b := rfl

@[simp] theorem overflowOut_add_iff {a b : Word} :
    overflowOut .add a b = true ↔ a.toInt + b.toInt < -32768 ∨ 32767 < a.toInt + b.toInt := by
  simp [overflowOut]

@[simp] theorem overflowOut_sub_iff {a b : Word} :
    overflowOut .sub a b = true ↔ a.toInt - b.toInt < -32768 ∨ 32767 < a.toInt - b.toInt := by
  simp [overflowOut]

/-- So the library's bit forms of the overflow apply to R125. -/
theorem overflowOut_add (a b : Word) : overflowOut .add a b = a.saddOverflow b := by
  rw [Bool.eq_iff_iff, overflowOut_add_iff]
  simp only [BitVec.saddOverflow, Bool.or_eq_true, decide_eq_true_iff]
  omega

/-- So the library's bit forms of the overflow apply to R126. -/
theorem overflowOut_sub (a b : Word) : overflowOut .sub a b = a.ssubOverflow b := by
  rw [Bool.eq_iff_iff, overflowOut_sub_iff]
  simp only [BitVec.ssubOverflow, Bool.or_eq_true, decide_eq_true_iff]
  omega

/-- R125, the bit form. -/
theorem overflowOut_add_iff_msb {a b : Word} :
    overflowOut .add a b = true ↔ a.msb = b.msb ∧ (a + b).msb ≠ a.msb := by
  simp [overflowOut_add, BitVec.saddOverflow_eq]

/-- R126, the bit form: the two cases of the library's are those of `a`'s sign. -/
theorem overflowOut_sub_iff_msb {a b : Word} :
    overflowOut .sub a b = true ↔ a.msb ≠ b.msb ∧ (a - b).msb ≠ a.msb := by
  rw [overflowOut_sub, BitVec.ssubOverflow_eq]
  cases a.msb <;> simp

/-- Settles O21: the exact form is the definition under the library's reading of a word, and the bit form the library's. -/
theorem overflowIsSignedOverflowAndItsBitForm : Obligations.OverflowIsSignedOverflowAndItsBitForm :=
  fun _ _ => ⟨overflowOut_add_iff, overflowOut_add_iff_msb, overflowOut_sub_iff, overflowOut_sub_iff_msb⟩

/-! ### The result column of R130 -/

@[simp] theorem aluResult_add (a b : Word) : aluResult .add a b = some (a + b) :=
  congrArg some (BitVec.eq_of_toNat_eq (by simp))

/-- The two cases of R130's SUB are the two ways a difference modulo 65536 comes out. -/
@[simp] theorem aluResult_sub (a b : Word) : aluResult .sub a b = some (a - b) := by
  refine congrArg some (BitVec.eq_of_toNat_eq ?_)
  rw [BitVec.toNat_sub, BitVec.toNat_ofNat]
  have := a.isLt
  have := b.isLt
  split <;> omega

@[simp] theorem aluResult_mul (a b : Word) : aluResult .mul a b = some (a * b) :=
  congrArg some (BitVec.eq_of_toNat_eq (by simp))

theorem aluResult_div_eq_some {a b r : Word} : aluResult .div a b = some r ↔ b ≠ 0x0000 ∧ r = a / b := by
  rw [aluResult, ← BitVec.udiv_def, eq_comm (a := r)]
  split
  next hb => simp [hb]
  next hb => simp [show b ≠ 0#16 from hb]

/-- Settles O22: the results are those of the operations on words, and the signed reading narrows to them (R132). -/
theorem resultsAgreeUnderBothReadings : Obligations.ResultsAgreeUnderBothReadings := by
  intro a b
  refine ⟨?add, ?sub, ?mul, fun r hr => ?div⟩
  case add => rw [aluResult_add, BitVec.ofInt_add, BitVec.ofInt_toInt, BitVec.ofInt_toInt]
  case sub =>
    rw [aluResult_sub, Int.sub_eq_add_neg, BitVec.ofInt_add, BitVec.ofInt_neg, BitVec.ofInt_toInt, BitVec.ofInt_toInt,
      BitVec.sub_eq_add_neg]
  case mul => rw [aluResult_mul, BitVec.ofInt_mul, BitVec.ofInt_toInt, BitVec.ofInt_toInt]
  case div =>
    obtain ⟨-, rfl⟩ := aluResult_div_eq_some.mp hr
    have hquot : (a / b).toNat = a.toNat / b.toNat := BitVec.toNat_udiv
    exact ⟨hquot, hquot ▸ Nat.div_le_self ..⟩

end Sys2Proof.Machine
end

section
/-! SUPPORT. The two rows of an opcode under one argument: their encodings, their effect in the frame of EXECUTE, and the
address error of every opcode with a memory operand; and LDI, LDA, STA by them (42_load_store.md R140 to R142). -/

namespace Sys2Proof.Machine

open Sys2Proof Sys2Proof.Laws

/-! ### Both rows of an opcode -/

/-- The two words of an opcode of arity 1 stand for its two rows (30_encoding.md R72, R73). -/
theorem encodedAs_of_arity {o : Opcode} (h : o.arity ≠ 0) :
    EncodedAs o.number (BitVec.ofBool (bitOfMode o.canonicalMode)) o.canonicalMode o.shortInstr o.wideInstr := by
  refine ⟨fun imm9 w1 => ?_, fun w1 => decode_wideWord o h w1⟩
  have hword : o.shortWord imm9 = firstWord o.number false (bitOfMode o.canonicalMode) imm9 := if_neg h
  have hdecode := decode_shortWord_eq o imm9 w1
  rwa [hword] at hdecode

/-- What the triple alone decides holds of both rows (30_encoding.md R82). -/
theorem bothRows_of_triple {o : Opcode} {m : Mode} {P : Instr → Word → Prop} (h : o.arity ≠ 0)
    (hP : ∀ i v, i.triple = ⟨o.number, v, m⟩ → P i v) : BothRows o.shortInstr o.wideInstr m P :=
  ⟨fun imm9 => hP _ _ (triple_shortInstr h m imm9), fun imm16 => hP _ _ (triple_wideInstr h m imm16)⟩

theorem exec_of_triple {i : Instr} {o : Opcode} {v : Word} {m : Mode} (h : i.triple = ⟨o.number, v, m⟩) (s : State) :
    exec i s = executePhase (phaseAfter o) (effectOf o m v) s := by
  obtain ⟨hnumber, rfl, rfl⟩ := Triple.mk.inj h
  have hop : i.op = o := Option.some.inj ((ofNumber_number i.op).symm.trans (ofNumber_eq_some.mpr hnumber))
  rw [exec_eq_effectOf, hop]

/-- EXECUTE completes with the effect's writes and the bookkeeping of R104, by the frame of the effect; HALT ends in
another phase. -/
theorem exec_completes {i : Instr} {o : Opcode} {v : Word} {m : Mode} {s u : State}
    (hi : i.triple = ⟨o.number, v, m⟩) (ho : o ≠ .halt) (hu : effectOf o m v s = .ok u) :
    exec i s = .next (afterExecute s u.acc u.pc u.flags u.mem) := by
  obtain ⟨-, -, -, -, hhalted, -, hframe⟩ := effectOf_ok hu
  rw [if_neg ho] at hhalted
  rw [exec_of_triple hi, executePhase_ok hu, phaseAfter, if_neg ho, hframe, hhalted]
  rfl

theorem exec_raises {i : Instr} {o : Opcode} {v : Word} {m : Mode} {s : State} {e : ErrorCode} {info : BitVec 17}
    (hi : i.triple = ⟨o.number, v, m⟩) (h : effectOf o m v s = .error ⟨e, info⟩) :
    exec i s = .next (afterError s e info) := by
  rw [exec_of_triple hi, executePhase_error h]
  rfl

/-! ### Effects by what they find at the operand address -/

theorem loadEffect_of_value {m : Mode} {a v : Word} {s : State} (h : operandValue m a s = .ok v) :
    loadEffect m a s = .ok (s.withAcc v) := by
  rw [loadEffect, h, except_bind_ok]

theorem staEffect_of_valid {a : Word} {s : State} (h : a.toNat < s.mem.size) (m : Mode) :
    staEffect m a s = .ok (s.withMem (s.mem.put a.toNat s.acc)) := by
  obtain ⟨-, hok⟩ | ⟨hbeyond, -⟩ := staEffect_cases (m := m) (a := a) (s := s) rfl
  · exact hok
  · omega

theorem staEffect_of_beyond {a : Word} {s : State} (h : s.mem.size ≤ a.toNat) (m : Mode) :
    staEffect m a s = .error ⟨.addressOutOfRange, a.setWidth 17⟩ := by
  obtain ⟨hvalid, -⟩ | ⟨-, herr⟩ := staEffect_cases (m := m) (a := a) (s := s) rfl
  · omega
  · exact herr

theorem aluEffect_of_no_value {f : AluOp} {m : Mode} {a : Word} {s : State} {r : Raise}
    (h : operandValue m a s = .error r) : aluEffect f m a s = .error r := by
  rw [aluEffect, h, except_bind_error]

/-- Every opcode with a memory operand, the store as the readers, raises on an address beyond the bound (60_exceptions.md
R190). -/
theorem effectOf_direct_beyond {o : Opcode} {a : Word} {s : State} (harity : o.arity ≠ 0)
    (hmode : o.canonicalMode = .direct) (h : s.mem.size ≤ a.toNat) :
    effectOf o .direct a s = .error ⟨.addressOutOfRange, a.setWidth 17⟩ := by
  have hread := operandValue_direct_none (cell_eq_none.mpr h)
  cases o
  case nop | halt | not => exact absurd rfl harity
  case ldi | jmp | jz | jnz | jc | jnc | jv | jnv | jn | jnn => cases hmode
  case sta => exact staEffect_of_beyond h .direct
  case lda => rw [effectOf, ldaEffect, loadEffect, hread, except_bind_error]
  case cmp => rw [effectOf, cmpEffect, hread, except_bind_error]
  case add | sub | mul | div | and | or | xor => exact aluEffect_of_no_value hread

/-- An opcode that reads its memory operand is settled by its EXECUTE on the word it finds. -/
theorem onMemoryWord_of_exec {o : Opcode} {after : State → Word → State} (harity : o.arity ≠ 0)
    (hmode : o.canonicalMode = .direct)
    (h : ∀ i a s b, i.triple = ⟨o.number, a, .direct⟩ → operandValue .direct a s = .ok b → exec i s = .next (after s b)) :
    OnMemoryWord o.shortInstr o.wideInstr after :=
  bothRows_of_triple harity fun i a hi s =>
    ⟨fun b hb => h i a s b hi (operandValue_direct hb), fun hs => exec_raises hi (effectOf_direct_beyond harity hmode hs)⟩

/-! ### The obligations -/

/-- Settles O8: a load of the value DIRECT reads. -/
theorem ldaLoadsTheCell : Obligations.LdaLoadsTheCell :=
  ⟨encodedAs_of_arity (o := .lda) (by decide),
    onMemoryWord_of_exec (o := .lda) (by decide) rfl fun _ _ _ _ hi hread =>
      exec_completes hi (by decide) (loadEffect_of_value hread)⟩

/-- Settles O9: the new memory is the old one with the one cell put. -/
theorem staStoresTheAccumulator : Obligations.StaStoresTheAccumulator := by
  refine ⟨encodedAs_of_arity (o := .sta) (by decide), bothRows_of_triple (o := .sta) (by decide) fun i a hi s =>
    ⟨fun ha => ?_, fun ha => exec_raises hi (effectOf_direct_beyond (by decide) rfl ha)⟩⟩
  have hexec := exec_completes hi (by decide) (staEffect_of_valid ha .direct)
  exact ⟨_, hexec, put_changes_one_cell ha s.acc⟩

/-- Settles O7: a load of the value IMMEDIATE is, whatever the state. -/
theorem ldiLoadsTheLiteral : Obligations.LdiLoadsTheLiteral :=
  ⟨encodedAs_of_arity (o := .ldi) (by decide),
    bothRows_of_triple (o := .ldi) (by decide) fun _ v hi s =>
      exec_completes hi (by decide) (loadEffect_of_value (operandValue_immediate v s))⟩

end Sys2Proof.Machine
end

section
/-! SUPPORT. The flags of each arithmetic operation, the effect and the EXECUTE of an ALU instruction on the word it reads; and
ADD, SUB, MUL, DIV, CMP by them (43_arithmetic.md R150 to R154). -/

namespace Sys2Proof.Machine

open Sys2Proof

/-! ### The flag unit, kind by kind -/

/-- N is the sign bit of the result (41_flag_unit_alu.md R122). -/
theorem flagUnit_eq (k : FlagKind) (a b r : Word) :
    flagUnit k a b r = { z := decide (r = 0), c := carryOut k a b, v := overflowOut k a b, n := r.msb } := by
  rw [BitVec.msb_eq_getLsbD_last]
  rfl

theorem flagUnit_add (a b r : Word) :
    flagUnit .add a b r =
      { z := decide (r = 0)
        c := decide (65536 ≤ a.toNat + b.toNat)
        v := decide (a.toInt + b.toInt < -32768 ∨ 32767 < a.toInt + b.toInt)
        n := r.msb } := by
  simp only [flagUnit_eq, carryOut, overflowOut, outsideSigned16, signed16_eq_toInt, ge_iff_le]

theorem flagUnit_sub (a b : Word) : flagUnit .sub a b (a - b) = differenceFlags a b := by
  simp only [flagUnit_eq, carryOut, overflowOut, outsideSigned16, signed16_eq_toInt, differenceFlags]

theorem flagUnit_mul (a b r : Word) :
    flagUnit .mul a b r =
      { z := decide (r = 0)
        c := decide (0xFFFF < a.toNat * b.toNat)
        v := decide (a.toInt * b.toInt < -32768 ∨ 32767 < a.toInt * b.toInt)
        n := r.msb } := by
  simp only [flagUnit_eq, carryOut, overflowOut, outsideSigned16, signed16_eq_toInt, gt_iff_lt]

/-- The quotient fits a word, so the zero word stands for the quotient 0 and no other (R153). -/
theorem flagUnit_div (a b : Word) :
    flagUnit .div a b (a / b) =
      { z := decide (a.toNat / b.toNat = 0), c := false, v := false, n := (a / b).msb } := by
  have hzero : a / b = 0 ↔ a.toNat / b.toNat = 0 := by
    rw [← BitVec.toNat_inj, BitVec.toNat_udiv]
    rfl
  simp only [flagUnit_eq, carryOut, overflowOut, hzero]

/-! ### What the flags of a difference say of the operands -/

theorem differenceFlags_z_iff {a b : Word} : (differenceFlags a b).z = true ↔ a = b := by
  rw [differenceFlags, decide_eq_true_iff]
  exact sub_eq_zero

/-- The sign bit of a difference is the sign of the exact difference, turned over exactly when that one overflows: the
word differs from it by 0 or by 65536 (R122, R126). -/
theorem differenceFlags_n_ne_v_iff {a b : Word} :
    (differenceFlags a b).n ≠ (differenceFlags a b).v ↔ a.toInt < b.toInt := by
  have hword : (a - b).toInt = (a.toInt - b.toInt).bmod 65536 := BitVec.toInt_sub
  have := a.toInt_lt
  have := a.le_toInt
  have := b.toInt_lt
  have := b.le_toInt
  rw [Int.bmod_def] at hword
  rw [differenceFlags, BitVec.msb_eq_toInt, ne_eq, decide_eq_decide]
  omega

/-! ### An ALU instruction on the word it reads -/

theorem aluEffect_of_result {f : AluOp} {m : Mode} {a b r : Word} {s : State} (hread : operandValue m a s = .ok b)
    (hr : aluResult f s.acc b = some r) :
    aluEffect f m a s = .ok ((s.withFlags (maskedFlags f.mask (flagUnit f.kind s.acc b r) s.flags)).withAcc r) := by
  rw [aluEffect, hread, except_bind_ok, aluOrRaise_ok hr, except_bind_ok, writeFlags]

/-- The address check is passed, the zero check fails (60_exceptions.md R197). -/
theorem divEffect_of_zero {m : Mode} {a : Word} {s : State} (hread : operandValue m a s = .ok 0x0000) :
    divEffect m a s = .error ⟨.arithmeticError, s.irAddr.setWidth 17⟩ := by
  rw [divEffect, aluEffect, hread, except_bind_ok, aluOrRaise_div_zero, except_bind_error]

theorem cmpEffect_of_value {m : Mode} {a b : Word} {s : State} (hread : operandValue m a s = .ok b) :
    cmpEffect m a s = .ok (s.withFlags (differenceFlags s.acc b)) := by
  rw [cmpEffect, hread, except_bind_ok, aluOrRaise_ok (aluResult_sub s.acc b), except_bind_ok, ← flagUnit_sub]
  rfl

/-- EXECUTE of an opcode whose effect is the ALU's: the result in the accumulator, the flags under the operation's mask
(R131). -/
theorem exec_alu_completes {i : Instr} {o : Opcode} {f : AluOp} {a b r : Word} {s : State} {flags : Flags}
    (hi : i.triple = ⟨o.number, a, .direct⟩) (ho : o ≠ .halt) (heffect : effectOf o .direct = aluEffect f .direct)
    (hread : operandValue .direct a s = .ok b) (hr : aluResult f s.acc b = some r)
    (hflags : maskedFlags f.mask (flagUnit f.kind s.acc b r) s.flags = flags) :
    exec i s = .next (afterExecute s r s.pc flags s.mem) := by
  subst hflags
  exact exec_completes hi ho (heffect ▸ aluEffect_of_result hread hr)

/-! ### The obligations -/

/-- Settles O10: the ALU's sum, with all four flags of its kind. -/
theorem addSumsAndSetsFlags : Obligations.AddSumsAndSetsFlags :=
  ⟨encodedAs_of_arity (o := .add) (by decide),
    onMemoryWord_of_exec (o := .add) (by decide) rfl fun _ _ s b hi hread =>
      exec_alu_completes hi (by decide) rfl hread (aluResult_add s.acc b) (flagUnit_add s.acc b _)⟩

/-- Settles O11: the ALU's difference, with all four flags of its kind. -/
theorem subSubtractsAndSetsFlags : Obligations.SubSubtractsAndSetsFlags :=
  ⟨encodedAs_of_arity (o := .sub) (by decide),
    onMemoryWord_of_exec (o := .sub) (by decide) rfl fun _ _ s b hi hread =>
      exec_alu_completes hi (by decide) rfl hread (aluResult_sub s.acc b) (flagUnit_sub s.acc b)⟩

/-- Settles O12: the low word of the ALU's product, with all four flags of its kind. -/
theorem mulMultipliesAndSetsFlags : Obligations.MulMultipliesAndSetsFlags :=
  ⟨encodedAs_of_arity (o := .mul) (by decide),
    onMemoryWord_of_exec (o := .mul) (by decide) rfl fun _ _ s b hi hread =>
      exec_alu_completes hi (by decide) rfl hread (aluResult_mul s.acc b) (flagUnit_mul s.acc b _)⟩

/-- Settles O13: by whether the divisor read is zero, the ALU's one error. -/
theorem divDividesOrRaises : Obligations.DivDividesOrRaises := by
  refine ⟨encodedAs_of_arity (o := .div) (by decide),
    onMemoryWord_of_exec (o := .div) (by decide) rfl fun i a s b hi hread => ?_⟩
  split
  next hb =>
    subst hb
    exact exec_raises hi (divEffect_of_zero hread)
  next hb =>
    rw [← BitVec.udiv_def]
    exact exec_alu_completes hi (by decide) rfl hread (aluResult_div_eq_some.mpr ⟨hb, rfl⟩) (flagUnit_div s.acc b)

/-- Settles O14: the flags of the ALU's difference alone, and their readings. -/
theorem cmpSetsTheFlagsOfSub : Obligations.CmpSetsTheFlagsOfSub :=
  ⟨encodedAs_of_arity (o := .cmp) (by decide),
    onMemoryWord_of_exec (o := .cmp) (by decide) rfl fun _ _ _ _ hi hread =>
      exec_completes hi (by decide) (cmpEffect_of_value hread),
    fun _ _ => ⟨differenceFlags_z_iff, decide_eq_true_iff, differenceFlags_n_ne_v_iff⟩⟩

end Sys2Proof.Machine
end

section
/-! SUPPORT. The one legal word of an opcode of arity 0; the results and the masked flags of the LOGIC kind; and AND, OR, XOR,
NOT by them (44_logic.md R160 to R163). -/

namespace Sys2Proof.Machine

open Sys2Proof Sys2Proof.Laws

/-! ### The row of an opcode of arity 0 -/

/-- Of the first words with an opcode of arity 0, the one whose other fields are zero is legal (30_encoding.md R72,
R81 (b)). -/
theorem encodedAlone_of_arity {o : Opcode} (h : o.arity = 0) :
    EncodedAlone o.number (o.shortWord 0) (o.shortInstr .immediate 0) := by
  intro w0 w1 hopc
  split
  next hw =>
    rw [hw, decode_shortWord_eq, canonicalMode_arityZero h]
    rfl
  next hw =>
    cases hd : decode w0 w1 with
    | error e => rfl
    | ok i =>
      obtain ⟨p, hp, hrow⟩ := decode_ok_cases hd
      have hop : o = p := Option.some.inj ((ofNumber_number o).symm.trans (ofNumber_eq_some.mpr (hopc.symm.trans hp)))
      subst hop
      obtain ⟨-, -, hword, -⟩ | ⟨harity, -⟩ | ⟨harity, -⟩ := hrow
      · exact absurd hword hw
      · exact absurd h harity
      · exact absurd h harity

/-! ### The LOGIC kind -/

/-- The complement of R160 is the one of R130, bit by bit. -/
@[simp] theorem aluResult_not (a b : Word) : aluResult .not a b = some (~~~a) :=
  congrArg some (BitVec.eq_of_toNat_eq (by rw [BitVec.toNat_not, BitVec.toNat_ofNat]; omega))

/-- The mask of the LOGIC kind lets Z and N through and keeps C and V (R130, R131). -/
theorem maskedFlags_logic {f : AluOp} (hf : f.kind = .logic) (a b r : Word) (old : Flags) :
    maskedFlags f.mask (flagUnit f.kind a b r) old = { old with z := decide (r = 0), n := r.msb } := by
  rw [AluOp.mask, hf, flagUnit_eq]
  rfl

/-- An instruction with a memory operand whose effect is a LOGIC operation of the ALU: AND, OR and XOR differ in the
result alone. -/
theorem logic_onMemoryWord {o : Opcode} {f : AluOp} {result : Word → Word → Word} (harity : o.arity ≠ 0)
    (hmode : o.canonicalMode = .direct) (heffect : effectOf o .direct = aluEffect f .direct) (hf : f.kind = .logic)
    (hresult : ∀ a b, aluResult f a b = some (result a b)) :
    OnMemoryWord o.shortInstr o.wideInstr fun s b =>
      afterExecute s (result s.acc b) s.pc
        { s.flags with z := decide (result s.acc b = 0), n := (result s.acc b).msb } s.mem :=
  onMemoryWord_of_exec harity hmode fun _ _ s b hi hread =>
    have ho : o ≠ .halt := fun h => harity (h ▸ rfl)
    exec_alu_completes hi ho heffect hread (hresult s.acc b) (maskedFlags_logic hf s.acc b _ s.flags)

/-! ### NOT -/

/-- Z and N of the complement, read off the operand. -/
theorem complement_zero_and_sign (a : Word) : decide (~~~a = 0) = decide (a = 0xFFFF) ∧ (~~~a).msb = !a.msb :=
  ⟨decide_eq_decide.mpr BitVec.not_eq_comm, by simp⟩

/-- R160: no memory is read, so NOT completes in every state. -/
theorem exec_not (s : State) : exec .not s = .next
    (afterExecute s (~~~s.acc) s.pc { s.flags with z := decide (s.acc = 0xFFFF), n := !s.acc.msb } s.mem) := by
  obtain ⟨r, hr, heffect⟩ := notEffect_ok s
  obtain rfl : ~~~s.acc = r := Option.some.inj ((aluResult_not s.acc 0x0000).symm.trans hr)
  obtain ⟨hz, hn⟩ := complement_zero_and_sign s.acc
  rw [← hz, ← hn, BitVec.msb_eq_getLsbD_last]
  exact exec_completes (o := .not) (m := .immediate) (v := 0) rfl (by decide) heffect

theorem exec_not_acc {s t : State} (h : exec .not s = .next t) : t.acc = ~~~s.acc := by
  rw [exec_not] at h
  cases h
  rfl

/-! ### The obligations -/

/-- Settles O15: three opcodes of the LOGIC kind, each with its own result. -/
theorem logicWritesZAndNOnly : Obligations.LogicWritesZAndNOnly :=
  ⟨⟨encodedAs_of_arity (o := .and) (by decide),
      logic_onMemoryWord (o := .and) (f := .and) (by decide) rfl rfl rfl fun _ _ => rfl⟩,
    ⟨encodedAs_of_arity (o := .or) (by decide),
      logic_onMemoryWord (o := .or) (f := .or) (by decide) rfl rfl rfl fun _ _ => rfl⟩,
    ⟨encodedAs_of_arity (o := .xor) (by decide),
      logic_onMemoryWord (o := .xor) (f := .xor) (by decide) rfl rfl rfl fun _ _ => rfl⟩⟩

/-- Settles O16: the complement of the complement is the word. -/
theorem notComplementsTheAccumulator : Obligations.NotComplementsTheAccumulator :=
  ⟨encodedAlone_of_arity (o := .not) rfl, exec_not, fun s t u ht hu =>
    calc u.acc = ~~~t.acc := exec_not_acc hu
      _ = ~~~(~~~s.acc) := by rw [exec_not_acc ht]
      _ = s.acc := BitVec.not_not⟩

end Sys2Proof.Machine
end

section
/-! SUPPORT. The effect of a jump on its literal target, and the nine jumps by their conditions (45_control.md R170 to R179). -/

namespace Sys2Proof.Machine

open Sys2Proof Sys2Proof.Laws

/-- A target is IMMEDIATE, so no memory is read and the effect completes, taken or not. -/
theorem jumpEffect_immediate (taken : Bool) (t : Word) (s : State) :
    jumpEffect taken .immediate t s = .ok (s.withPc (if taken then t else s.pc)) := by
  cases taken with
  | true => rw [jumpEffect, operandValue_immediate, except_bind_ok, if_pos rfl]
  | false => rfl

/-- An opcode with a literal operand whose effect is a jump: the nine differ in the condition alone, read off the flags the
EXECUTE phase starts with (R179). -/
theorem jumpsWhen_of_jumpEffect {o : Opcode} {taken : Flags → Bool} (harity : o.arity ≠ 0)
    (hmode : o.canonicalMode = .immediate)
    (heffect : ∀ t s, effectOf o .immediate t s = jumpEffect (taken s.flags) .immediate t s) :
    JumpsWhen o.number o.shortInstr o.wideInstr taken := by
  have hencoded := encodedAs_of_arity harity
  rw [hmode] at hencoded
  have ho : o ≠ .halt := fun h => harity (h ▸ rfl)
  exact ⟨hencoded, bothRows_of_triple harity fun i t hi s =>
    exec_completes hi ho ((heffect t s).trans (jumpEffect_immediate (taken s.flags) t s))⟩

/-- Settles O17: each row of R179's table is the condition its opcode's effect passes on. -/
theorem jumpsFollowTheConditionTable : Obligations.JumpsFollowTheConditionTable :=
  ⟨jumpsWhen_of_jumpEffect (o := .jmp) (by decide) rfl fun _ _ => rfl,
    jumpsWhen_of_jumpEffect (o := .jz) (by decide) rfl fun _ _ => rfl,
    jumpsWhen_of_jumpEffect (o := .jnz) (by decide) rfl fun _ _ => rfl,
    jumpsWhen_of_jumpEffect (o := .jc) (by decide) rfl fun _ _ => rfl,
    jumpsWhen_of_jumpEffect (o := .jnc) (by decide) rfl fun _ _ => rfl,
    jumpsWhen_of_jumpEffect (o := .jv) (by decide) rfl fun _ _ => rfl,
    jumpsWhen_of_jumpEffect (o := .jnv) (by decide) rfl fun _ _ => rfl,
    jumpsWhen_of_jumpEffect (o := .jn) (by decide) rfl fun _ _ => rfl,
    jumpsWhen_of_jumpEffect (o := .jnn) (by decide) rfl fun _ _ => rfl⟩

end Sys2Proof.Machine
end

section
/-! SUPPORT. The EXECUTE of HALT and the state it leaves; and HALT, NOP (46_system.md R185, R186). -/

namespace Sys2Proof.Machine

open Sys2Proof Sys2Proof.Laws

/-! ### HALT -/

/-- HALT has one row, so the W bit of the buffered word does not count (log 9). -/
theorem instrOfLatches_halt (wide : Bool) : instrOfLatches wide Instr.halt.triple = some .halt := by
  cases wide with
  | false => exact latch_short .halt .immediate 0
  | true => exact latch_wide .halt .immediate 0

/-- HALT reads nothing, so it completes in every state, and its frame is the one that ends in the phase HALTED (R185). -/
theorem exec_halt (s : State) : exec .halt s = .next (finishExecute .halted s.withHalted) := executePhase_ok rfl

theorem step_execute_halt {s : State} (hr : running s) (hp : s.phase = .execute)
    (hlatch : latchTriple s = Instr.halt.triple) : step s = exec .halt s := by
  rw [step_execute hr hp, executeLatched, hlatch, instrOfLatches_halt]

theorem outputOf_halted {t : State} (hf : t.fault = .none) (hh : t.halted = true) :
    outputOf t = { continues := false, error := .none, errorInfo := 0 } := by
  simp [outputOf, hf, hh]

theorem exec_halt_halted {s t : State} (h : exec .halt s = .next t) : t.halted = true := by
  rw [exec_halt] at h
  cases h
  rfl

/-! ### The obligations -/

/-- Settles O18: the halted flag EXECUTE leaves decides what the step returns and that every later step is a no-op. -/
theorem haltStopsTheMachine : Obligations.HaltStopsTheMachine := by
  refine ⟨encodedAlone_of_arity (o := .halt) rfl, exec_halt, fun s hr hp hlatch => ?_, fun s t ht =>
    ⟨step_halted (exec_halt_halted ht), rfl, rfl⟩⟩
  have hstep := step_execute_halt hr hp hlatch
  refine ⟨hstep, ?_⟩
  have hfault : (finishExecute .halted s.withHalted).fault = .none := hr.1
  rw [stepOutput_of_step (hstep.trans (exec_halt s)), outputOf_halted hfault rfl]

/-- Settles O19: the effect leaves the state as it is, and 0x0000 holds no assigned opcode (30_encoding.md R81 (a)). -/
theorem nopHasNoEffectOfItsOwn : Obligations.NopHasNoEffectOfItsOwn :=
  ⟨encodedAlone_of_arity (o := .nop) rfl, fun w1 => decode_refuses_of_unassigned rfl w1 .nop, fun s =>
    exec_completes (o := .nop) (m := .immediate) (v := 0) (u := s) rfl (by decide) rfl⟩

end Sys2Proof.Machine
end

section
/-! SUPPORT. A running step takes an error exactly when its phase raises it; what each phase raises, said both ways; and the
statements of 60_exceptions.md (R190, R193, R196). -/

namespace Sys2Proof.Machine

open Sys2Proof Sys2Proof.Laws

/-! ### Taking an error -/

theorem afterError_eq_raiseError (s : State) (e : ErrorCode) (info : BitVec 17) :
    afterError s e info = raiseError s ⟨e, info⟩ := rfl

/-- The latch shows which error was taken. -/
theorem raiseError_injective (s : State) {r q : Raise} (h : raiseError s r = raiseError s q) : r = q :=
  congrArg (fun t : State => Raise.mk t.fault t.faultInfo) h

/-- A phase that raises has its error taken (R193). -/
theorem step_of_phaseRaises {s : State} {r : Raise} (hr : running s) (h : PhaseRaises s r) :
    step s = .next (raiseError s r) := by
  cases h with
  | fetch hp h => rw [step_fetch hr hp, h, commit_error]
  | decode hp h => rw [step_decode hr hp, h, commit_error]
  | execute i hp hi h =>
    rw [step_execute hr hp, executeLatched, hi]
    exact (exec_eq_effectOf i s).trans (executePhase_error h)

/-- A completed phase writes no error, so a running step that leaves one took it from its phase. -/
theorem phaseRaises_of_step {s t : State} (hr : running s) (h : step s = .next t) (hf : t.fault ≠ .none) :
    ∃ r, PhaseRaises s r ∧ t = raiseError s r := by
  cases stepsTo_of_step h with
  | stays | fetches | decodes => exact absurd hr.1 hf
  | raises r _ hraise => exact ⟨r, hraise, rfl⟩
  | executes i u _ _ _ hu =>
    obtain ⟨-, -, hfault, -⟩ := effectOf_keeps hu
    exact absurd (hfault.trans hr.1) hf

/-- A running step takes an error exactly when the phase the state names raises it (R190, R193). -/
theorem step_eq_raiseError_iff {s : State} {r : Raise} (hr : running s) (hcode : r.code ≠ .none) :
    step s = .next (raiseError s r) ↔ PhaseRaises s r := by
  refine ⟨fun h => ?_, step_of_phaseRaises hr⟩
  obtain ⟨q, hq, heq⟩ := phaseRaises_of_step hr h hcode
  rwa [raiseError_injective s heq]

/-! ### What each phase raises -/

/-- The information of R196 is a word, read as a number. -/
theorem eq_setWidth17_iff {info : BitVec 17} {a : Word} : info = a.setWidth 17 ↔ info.toNat = a.toNat := by
  rw [← BitVec.toNat_inj, toNat_setWidth17]

/-- For the second word of a FETCH the number may exceed every word: `pc + 1` is not wrapped (R196). -/
theorem eq_setWidth17_succ_iff {info : BitVec 17} {a : Word} : info = a.setWidth 17 + 1 ↔ info.toNat = a.toNat + 1 := by
  rw [← BitVec.toNat_inj, toNat_setWidth17_succ]

/-- FETCH raises on its first or on its second word (R190, 40_fsm.md R102). -/
theorem doFetch_eq_error {s : State} {r : Raise} :
    doFetch s = .error r ↔
      (s.mem.size ≤ s.pc.toNat ∧ r = ⟨.addressOutOfRange, s.pc.setWidth 17⟩) ∨
      (s.mem.size ≤ s.pc.toNat + 1 ∧ (∃ w0, s.mem.cell s.pc.toNat = some w0 ∧ wideBit w0 = true) ∧
        r = ⟨.addressOutOfRange, s.pc.setWidth 17 + 1⟩) := by
  constructor
  · intro h
    obtain ⟨hs, he⟩ | ⟨_, -, -, he⟩ | ⟨w0, h0, hw, hs, he⟩ | ⟨_, _, -, -, -, he⟩ := doFetch_cases h <;> cases he
    · exact .inl ⟨hs, rfl⟩
    · exact .inr ⟨hs, ⟨w0, h0, hw⟩, rfl⟩
  · rintro (⟨hs, rfl⟩ | ⟨hs, ⟨w0, h0, hw⟩, rfl⟩)
    · exact doFetch_of_no_first_word hs
    · exact doFetch_of_no_second_word h0 hw hs

/-- DECODE raises on the buffers the decoder refuses (R190, 40_fsm.md R103). -/
theorem doDecode_eq_error {s : State} {r : Raise} :
    doDecode s = .error r ↔
      (∀ d, decodeTriple s.ir0 s.ir1 ≠ .ok d) ∧ r = ⟨.decodeError, s.ir0.setWidth 17⟩ := by
  obtain ⟨d, hd, he⟩ | ⟨c, hd, he⟩ := doDecode_cases (s := s) rfl
  · simp [hd, he]
  · simp [hd, he, eq_comm (a := r)]

/-- The opcodes with a memory operand are numbered in a row (30_encoding.md R71). -/
theorem number_in_row_iff {o : Opcode} :
    0x04 ≤ o.number.toNat ∧ o.number.toNat ≤ 0x0D ↔ o.arity ≠ 0 ∧ o.canonicalMode = .direct := by
  cases o <;> decide

theorem number_injective : Function.Injective Opcode.number := fun o _ h =>
  Option.some.inj ((ofNumber_number o).symm.trans (ofNumber_eq_some.mpr h))

theorem number_eq_div {o : Opcode} : o.number = 0x09 ↔ o = .div := number_injective.eq_iff (b := .div)

/-- In the canonical mode of its opcode an effect raises on an address beyond the bound, and DIV on a zero divisor, and on
nothing else (R190). -/
theorem effectOf_eq_error {o : Opcode} {v : Word} {s : State} {r : Raise} :
    effectOf o o.canonicalMode v s = .error r ↔
      (0x04 ≤ o.number.toNat ∧ o.number.toNat ≤ 0x0D ∧ s.mem.size ≤ v.toNat ∧
        r = ⟨.addressOutOfRange, v.setWidth 17⟩) ∨
      (o = .div ∧ s.mem.cell v.toNat = some 0x0000 ∧ r = ⟨.arithmeticError, s.irAddr.setWidth 17⟩) := by
  refine ⟨effectOf_error, ?_⟩
  rintro (⟨hlo, hhi, hs, rfl⟩ | ⟨rfl, hzero, rfl⟩)
  · obtain ⟨harity, hmode⟩ := number_in_row_iff.mp ⟨hlo, hhi⟩
    rw [hmode]
    exact effectOf_direct_beyond harity hmode hs
  · exact divEffect_of_zero (operandValue_direct hzero)

/-! ### The phase the state names -/

theorem phaseRaises_fetch_iff {s : State} {r : Raise} (hp : s.phase = .fetch) :
    PhaseRaises s r ↔ doFetch s = .error r := by
  refine ⟨fun h => ?_, .fetch hp⟩
  cases h with
  | fetch _ h => exact h
  | decode hp' | execute _ hp' => cases hp.symm.trans hp'

theorem phaseRaises_decode_iff {s : State} {r : Raise} (hp : s.phase = .decode) :
    PhaseRaises s r ↔ doDecode s = .error r := by
  refine ⟨fun h => ?_, .decode hp⟩
  cases h with
  | decode _ h => exact h
  | fetch hp' | execute _ hp' => cases hp.symm.trans hp'

theorem not_phaseRaises_of_halted {s : State} {r : Raise} (hp : s.phase = .halted) : ¬ PhaseRaises s r := by
  rintro (⟨hp', -⟩ | ⟨hp', -⟩ | ⟨_, hp', -, -⟩) <;> cases hp.symm.trans hp'

/-- R33 (e): in EXECUTE the latches hold the triple of a decoded instruction, so its opcode in its canonical mode. -/
theorem Inv.latched {s : State} (h : Inv s) (hp : s.phase = .execute) :
    ∃ i, instrOfLatches (wideBit s.ir0) (latchTriple s) = some i ∧
      i.op.number = s.dOp ∧ i.operand = s.dOperand ∧ i.mode = i.op.canonicalMode := by
  obtain ⟨i, hd, hi⟩ := decode_of_decodeTriple (h.latches hp)
  obtain ⟨hlatch, hwf⟩ := instrOfLatches_of_decode hd
  obtain ⟨hop, hoperand, -⟩ := Triple.mk.inj hi
  exact ⟨i, hi ▸ hlatch, hop, hoperand, hwf⟩

/-- What EXECUTE raises is what the effect of the latched opcode raises on the latched operand. -/
theorem Inv.phaseRaises_execute {s : State} (h : Inv s) (hp : s.phase = .execute) :
    ∃ o : Opcode, o.number = s.dOp ∧
      ∀ r, PhaseRaises s r ↔ effectOf o o.canonicalMode s.dOperand s = .error r := by
  obtain ⟨i, hi, hop, hoperand, hmode⟩ := h.latched hp
  rw [← hoperand]
  refine ⟨i.op, hop, fun r => ⟨fun hraise => ?_, fun herr => .execute i hp hi (hmode ▸ herr)⟩⟩
  cases hraise with
  | execute j _ hj herr =>
    obtain rfl : i = j := Option.some.inj (hi.symm.trans hj)
    exact hmode ▸ herr
  | fetch hp' | decode hp' => cases hp.symm.trans hp'

/-! ### The list of R190, phase by phase -/

section
variable {s : State} {e : ErrorCode} {info : BitVec 17}

theorem errorCause_fetch_iff (hp : s.phase = .fetch) : ErrorCause s e info ↔ doFetch s = .error ⟨e, info⟩ := by
  simp only [ErrorCause, hp, reduceCtorEq, true_and, false_and, or_false, doFetch_eq_error, wideBit, Raise.mk.injEq,
    eq_setWidth17_iff, eq_setWidth17_succ_iff]
  tauto

theorem errorCause_decode_iff (hp : s.phase = .decode) : ErrorCause s e info ↔ doDecode s = .error ⟨e, info⟩ := by
  simp only [ErrorCause, hp, reduceCtorEq, true_and, false_and, false_or, or_false, doDecode_eq_error,
    Raise.mk.injEq, eq_setWidth17_iff]
  tauto

theorem errorCause_execute_iff {o : Opcode} (hp : s.phase = .execute) (ho : o.number = s.dOp) :
    ErrorCause s e info ↔ effectOf o o.canonicalMode s.dOperand s = .error ⟨e, info⟩ := by
  simp only [ErrorCause, hp, reduceCtorEq, true_and, false_and, false_or, ← ho, number_eq_div,
    effectOf_eq_error, Raise.mk.injEq, eq_setWidth17_iff]
  tauto

theorem not_errorCause_of_halted (hp : s.phase = .halted) : ¬ ErrorCause s e info := by
  simp [ErrorCause, hp]

/-- The list of R190 is what the phases raise. -/
theorem Inv.phaseRaises_iff_errorCause (h : Inv s) : PhaseRaises s ⟨e, info⟩ ↔ ErrorCause s e info := by
  cases hp : s.phase with
  | fetch => rw [phaseRaises_fetch_iff hp, errorCause_fetch_iff hp]
  | decode => rw [phaseRaises_decode_iff hp, errorCause_decode_iff hp]
  | execute =>
    obtain ⟨o, ho, hraises⟩ := h.phaseRaises_execute hp
    rw [hraises, errorCause_execute_iff hp ho]
  | halted => exact iff_of_false (not_phaseRaises_of_halted hp) (not_errorCause_of_halted hp)

end

/-! ### The obligations -/

/-- Settles O31: the error taken is the one write, and the latch stops every later step. -/
theorem failingPhaseWritesTheLatchOnly : Obligations.FailingPhaseWritesTheLatchOnly := by
  intro s t hr h hf
  have houtput : stepOutput s = some { continues := false, error := t.fault, errorInfo := t.faultInfo } := by
    simp [stepOutput_of_step h, outputOf, hf]
  refine ⟨?_, (step_halted_of_fault h hf).trans hr.2, houtput, step_faulted hf⟩
  obtain ⟨r, -, rfl⟩ := phaseRaises_of_step hr h hf
  exact (afterError_eq_raiseError s r.code r.info).symm

/-- Settles O32: a step takes what its phase raises, and the phases raise what R190 lists. -/
theorem runtimeErrorsAreExactlyThese : Obligations.RuntimeErrorsAreExactlyThese := by
  intro s e info h hr hcode
  rw [afterError_eq_raiseError, step_eq_raiseError_iff hr hcode]
  exact h.phaseRaises_iff_errorCause

end Sys2Proof.Machine
end

section
/-! SUPPORT. Reset, and the instruction in flight: what the latches and the buffer decide without the memory
(70_reset_and_hazards.md R220, R232). -/

namespace Sys2Proof.Machine

open Sys2Proof Sys2Proof.Laws

/-- A reset machine is a new one around the old memory: the two agree in all but how they write the general registers, which
`hostReset` maps to 0x0000 one by one (R220, R223). -/
theorem hostReset_eq_create (s : State) (memWords : Nat) :
    hostReset s = { State.create { memWords := memWords, ngpr := s.gpr.length } with mem := s.mem } :=
  congrArg (fun g => { hostReset s with gpr := g }) (hostReset_gpr s)

/-- EXECUTE finds the instruction in the buffer and the latches alone (40_fsm.md R104). -/
theorem step_execute_of_latches {s : State} {i : Instr} (hr : running s) (hp : s.phase = .execute)
    (hd : decode s.ir0 s.ir1 = .ok i) (hlatch : latchTriple s = i.triple) : step s = exec i s := by
  obtain ⟨hheld, -⟩ := instrOfLatches_of_decode hd
  rw [step_execute hr hp, executeLatched, hlatch, hheld]

/-! ### The obligations -/

/-- Settles O43: the second record is the first with `State.create` written out. -/
theorem resetIsANewMachineWithTheOldMemory : Obligations.ResetIsANewMachineWithTheOldMemory := fun s memWords =>
  ⟨hostReset_eq_create s memWords, hostReset_eq_create s memWords⟩

/-- Settles O24: DECODE answers by the buffer and EXECUTE by the latches, and both stay when the memory is replaced. -/
theorem instructionInFlightIsACopy : Obligations.InstructionInFlightIsACopy := by
  intro s m i hr
  have hr' : running (s.withMem m) := hr
  refine ⟨fun hp t ht => ?_, fun hp hd hlatch => ?_⟩
  · cases hd : decodeTriple s.ir0 s.ir1 with
    | ok d =>
      cases (step_decode_completes hr hp hd).symm.trans ht
      exact ⟨_, step_decode_completes hr' hp hd, rfl, rfl, rfl, rfl, rfl, rfl⟩
    | error c =>
      cases (step_decode_raises hr hp hd).symm.trans ht
      exact ⟨_, step_decode_raises hr' hp hd, rfl, rfl, rfl, rfl, rfl, rfl⟩
  · exact ⟨step_execute_of_latches hr hp hd hlatch, step_execute_of_latches hr' hp hd hlatch⟩

end Sys2Proof.Machine
end
